-- ==== Sys2Proof/Word.lean ====
section
/-! DEFINITION. The word types of pongo-vm CORE and the type of its byte memories (spec/00_scope.md R5, R7). -/

namespace Sys2Proof

/-- One byte, the unit of an instruction and of a memory access (R5). -/
abbrev Byte := BitVec 8

/-- One 16-bit value: the width of `A`, `D`, IP, Loop, Indirect and of an address (R5). -/
abbrev Word := BitVec 16

/-- A 6-bit chunk: the data field of an instruction byte (R5, R10). -/
abbrev Chunk := BitVec 6

/-- A byte memory as plain data: the bytes that differ from 0x00, by address. An address that is not listed reads 0x00
(R29 for RAM, R16 and R49 for ROM, R87 for the assembler's image). -/
abbrev Memory := List Host.Cell

end Sys2Proof
end

