-- ==== Sys2Proof/Config.lean ====
section
/-! DEFINITION. The parameters the source leaves open (spec/00_scope.md R6). The default values stand in
Machine/Defaults.lean. The seventh parameter of R6, the I/O handler, is host input: `State.hostAnswers`. -/

namespace Sys2Proof

/-- The named parameters of R6, fixed for one machine. Every meaning reads them from here, so that a statement over all
states is a statement over all parameters; nothing is built on a default value. -/
structure Config where
  /-- `OPC_PUSHA`: the opcode number of `PushA` (R51, D1). -/
  opcPushA : BitVec 2
  /-- `OPC_AMOVD` (R51, D1). -/
  opcAMovD : BitVec 2
  /-- `OPC_ASMOVD` (R51, D1). -/
  opcAsMovD : BitVec 2
  /-- `OPC_DMOVAS` (R51, D1). -/
  opcDMovAs : BitVec 2
  /-- `FB_SIXTEEN`: the Flow bit that arms `f16` (R23, D2). -/
  fbSixteen : Fin 8
  /-- `FB_INHIBIT`: the Flow bit that arms `finh` (R23, D2). -/
  fbInhibit : Fin 8
  /-- `FB_LOADIND`: the Flow bit that arms `fli` (R23, D2). -/
  fbLoadInd : Fin 8
  /-- `FB_STOREIND`: the Flow bit that arms `fsi` (R23, D2). -/
  fbStoreInd : Fin 8
  /-- `FB_LOOPDOWN`: the Flow bit that decrements Loop (R23, D2). -/
  fbLoopDown : Fin 8
  /-- `FB_INDUP`: the Flow bit that increments Indirect (R23, D2). -/
  fbIndUp : Fin 8
  /-- `FB_INDDOWN`: the Flow bit that decrements Indirect (R23, D2). -/
  fbIndDown : Fin 8
  /-- `FB_FRAMEWAIT`: the Flow bit that sets `fw` (R23, D2, D3). -/
  fbFrameWait : Fin 8
  /-- `ROT_N`: the rotate count of the read view at address 0x7 (R22, D4). -/
  rotN : Fin 8
  /-- `RESET_IP`: IP after reset (R29, R108, D12). -/
  resetIP : Word
  /-- `LABEL_SENTINEL`: the assembler's placeholder for a label not yet placed (R85, D19). -/
  labelSentinel : Word
  deriving DecidableEq, Repr

/-- The four opcode numbers, in the order of R51. -/
def Config.opcodes (cfg : Config) : List (BitVec 2) :=
  [cfg.opcPushA, cfg.opcAMovD, cfg.opcAsMovD, cfg.opcDMovAs]

/-- The eight Flow bit positions, in the order of R6. -/
def Config.flowBits (cfg : Config) : List (Fin 8) :=
  [cfg.fbSixteen, cfg.fbInhibit, cfg.fbLoadInd, cfg.fbStoreInd, cfg.fbLoopDown, cfg.fbIndUp, cfg.fbIndDown,
    cfg.fbFrameWait]

end Sys2Proof
end

