-- ==== Sys2Proof/Machine/AsmTree.lean ====
section
/-! DEFINITION. The assembler's input: program trees (spec/45_assembler.md R81, R84). -/

namespace Sys2Proof

/-- The three opcodes an `InstructionDescriptor` may carry (R81): the opcodes that are not `PushA`. -/
inductive MoveOp where
  | aMovD
  | asMovD
  | dMovAs
  deriving DecidableEq, Repr

/-- The operand of an `InstructionDescriptor` (R81). It carries no tag (R65, D23). -/
inductive Operand where
  /-- Any integer, used modulo 65536 (R82). -/
  | lit (value : Int)
  /-- The 16-bit address of a label (R82). -/
  | labelRef (name : String)
  deriving DecidableEq, Repr

/-- The leaves of a program tree (R81). -/
inductive Leaf where
  /-- Bytes copied verbatim. -/
  | rawData (bytes : List Byte)
  /-- Sets the origin counter; an address outside 0..0xFFFF is refused by the assembler (R92). -/
  | atOrigin (address : Int)
  /-- Names the address where it stands. -/
  | atLabel (name : String)
  /-- An instruction with its operand: R81's `Instr(opcode, operand)`. -/
  | descriptor (op : MoveOp) (operand : Operand)
  deriving DecidableEq, Repr

/-- A program: "a possibly nested sequence" of leaves (R81). -/
inductive Tree where
  | leaf (l : Leaf)
  | seq (ts : List Tree)
  deriving Repr

/-- The labels a list of leaves defines, in order. -/
def Leaf.labels : List Leaf → List String
  | [] => []
  | .atLabel name :: ls => name :: Leaf.labels ls
  | .rawData _ :: ls => Leaf.labels ls
  | .atOrigin _ :: ls => Leaf.labels ls
  | .descriptor _ _ :: ls => Leaf.labels ls

/-- The labels a list of leaves refers to, in order. -/
def Leaf.references : List Leaf → List String
  | [] => []
  | .descriptor _ (.labelRef name) :: ls => name :: Leaf.references ls
  | .descriptor _ (.lit _) :: ls => Leaf.references ls
  | .rawData _ :: ls => Leaf.references ls
  | .atOrigin _ :: ls => Leaf.references ls
  | .atLabel _ :: ls => Leaf.references ls

/-- Every `AtOrigin` address is one of 0..0xFFFF (R81). -/
def Leaf.originsInRange : List Leaf → Bool
  | [] => true
  | .atOrigin a :: ls => decide (0 ≤ a ∧ a ≤ 0xFFFF) && Leaf.originsInRange ls
  | .rawData _ :: ls => Leaf.originsInRange ls
  | .atLabel _ :: ls => Leaf.originsInRange ls
  | .descriptor _ _ :: ls => Leaf.originsInRange ls

end Sys2Proof
end

