-- ==== Sys2Proof/Machine/Defaults.lean ====
section
/-! DEFINITION. The default column of spec/00_scope.md R6. The spec calls every one of these its own choice
(D1, D2, D3, D4, D12, D19): notes/assumptions/1.md. -/

namespace Sys2Proof

/-- The default parameters of R6. DESIGN CHOICE of the spec, unsafe: no claim about the repository may rest on them. -/
def Config.default : Config :=
  { opcPushA := 0, opcAMovD := 1, opcAsMovD := 2, opcDMovAs := 3
    fbSixteen := 0, fbInhibit := 1, fbLoadInd := 2, fbStoreInd := 3
    fbLoopDown := 4, fbIndUp := 5, fbIndDown := 6, fbFrameWait := 7
    rotN := 1, resetIP := 0x8000, labelSentinel := 0xEAEA }

end Sys2Proof
end

