-- ==== Sys2Proof/Syntax.lean ====
section
/-! DEFINITION. The instruction set: one constructor per row of spec/opcode_table.json (spec/30_encoding.md R50, R51). -/

namespace Sys2Proof

/-- The four instructions of R51. Each carries the 6-bit data field of its byte (R50); the opcode numbers are
parameters (`Config`) and enter only in Decode.lean. -/
inductive Instr where
  /-- `PushA data`: merge `data` into the accumulator (R67). -/
  | pushA (data : Chunk)
  /-- `AMovD data`: the assembled literal goes to `D` (R69). -/
  | aMovD (data : Chunk)
  /-- `AsMovD data`: memory at the assembled address goes to `D` (R70). -/
  | asMovD (data : Chunk)
  /-- `DMovAs data`: `D` goes to memory at the assembled address (R71). -/
  | dMovAs (data : Chunk)
  deriving DecidableEq, Repr

/-- The data field of an instruction (R50). -/
def Instr.data : Instr → Chunk
  | .pushA data => data
  | .aMovD data => data
  | .asMovD data => data
  | .dMovAs data => data

end Sys2Proof
end

