-- ==== Sys2Proof/WellFormed.lean ====
section
/-! DEFINITION. What is checked before a term is used: parameters (R6), instructions (R61), program leaves (R81, R83). -/

namespace Sys2Proof

/-- R6: the four opcode numbers are pairwise distinct. -/
abbrev Config.OpcodesDistinct (cfg : Config) : Prop := cfg.opcodes.Nodup

/-- R6: the eight Flow bit positions are pairwise distinct. -/
abbrev Config.FlowBitsDistinct (cfg : Config) : Prop := cfg.flowBits.Nodup

/-- The parameters R6 admits. -/
abbrev Config.Legal (cfg : Config) : Prop := cfg.OpcodesDistinct ∧ cfg.FlowBitsDistinct

/-- R61: every 6-bit data value of every opcode is an instruction, so there is nothing left to check; the width of the
data field is in the type. -/
abbrev Instr.WellFormed (_ : Instr) : Prop := True

/-- What R81 and R83 ask of a flattened program: label names are unique, every reference has its label, every origin
is an address. (What R92 says of the image's end depends on the passes and is checked there.) -/
abbrev Leaf.WellFormed (ls : List Leaf) : Prop :=
  (Leaf.labels ls).Nodup ∧ (∀ name ∈ Leaf.references ls, name ∈ Leaf.labels ls) ∧ Leaf.originsInRange ls = true

end Sys2Proof
end

