-- ==== Sys2Proof/Decode.lean ====
section
/-! DEFINITION. The decoder, then the encoder: instruction bytes (R50, R51), the Chunk Encoder (R53 to R55) and the
Instruction Builder (R57, R58). -/

namespace Sys2Proof

/-- Bits 7:6 of an instruction byte (R50). -/
def opField (b : Byte) : BitVec 2 := b.extractLsb' 6 2

/-- Bits 5:0 of an instruction byte (R50). -/
def dataField (b : Byte) : Chunk := b.extractLsb' 0 6

/-- One byte is one instruction; the tests stand in the order of R66. Every byte decodes (R61). -/
def decodeByte (cfg : Config) (b : Byte) : Instr :=
  if opField b = cfg.opcPushA then .pushA (dataField b)
  else if opField b = cfg.opcAMovD then .aMovD (dataField b)
  else if opField b = cfg.opcAsMovD then .asMovD (dataField b)
  else .dMovAs (dataField b)

/-- Why the decoder of a byte list answers no instruction. No byte value is a reason (R61). -/
inductive DecodeRefusal where
  /-- The list is empty: there is no byte to decode. Safe: `step` never decodes an empty list. -/
  | noByte
  deriving DecidableEq, Repr

/-- Decode the first instruction of a byte list and give the rest of the list. -/
def decode (cfg : Config) : List Byte → Except DecodeRefusal (Instr × List Byte)
  | [] => .error .noByte
  | b :: rest => .ok (decodeByte cfg b, rest)

/-- The length of the instruction sequence a byte list starts with (R52): the bytes up to and including the first one
whose opcode is not `OPC_PUSHA`; none where the list ends before. -/
def sequenceLength (cfg : Config) : List Byte → Option Nat
  | [] => none
  | b :: rest => if opField b = cfg.opcPushA then (sequenceLength cfg rest).map (· + 1) else some 1

/-- The instruction the decoder reads from the bits `w` of an opcode-table row of `nbits` bits, under the default
opcode numbers of the table. Every instruction is one byte (R50), so the byte laid out is bits 7..0. -/
def decodeTableWord (nbits w : Nat) : Option Instr :=
  match decode Config.default [BitVec.ofNat 8 (w % 2 ^ nbits)] with
  | .ok (i, _) => some i
  | .error _ => none

/-- R57: pack a 2-bit opcode and the low 6 bits of `data` into one byte. -/
def assembleOneRawInstruction (opcode : BitVec 2) (data : Nat) : Byte :=
  (opcode.setWidth 8 <<< 6) ||| (BitVec.ofNat 8 data &&& 0x3F)

/-- The opcode number of an instruction (R51). -/
def Instr.opcode (cfg : Config) : Instr → BitVec 2
  | .pushA _ => cfg.opcPushA
  | .aMovD _ => cfg.opcAMovD
  | .asMovD _ => cfg.opcAsMovD
  | .dMovAs _ => cfg.opcDMovAs

/-- The byte of one instruction (R50, R57). -/
def encodeByte (cfg : Config) (i : Instr) : Byte := assembleOneRawInstruction (i.opcode cfg) i.data.toNat

/-- The words of one instruction: one byte (R50). -/
def encode (cfg : Config) (i : Instr) : List Byte := [encodeByte cfg i]

/-- The Chunk Encoder (R53 to R55), chunks in the order the source lists them. -/
def chunks (v : Word) : List Chunk :=
  let top : BitVec 4 := v.extractLsb' 12 4
  let mid : Chunk := v.extractLsb' 6 6
  let low : Chunk := v.extractLsb' 0 6
  if v.msb then
    if top = 0xF ∧ mid = 0x3F ∧ low.msb = true then [low]
    else if top = 0xF ∧ mid = 0x3F ∧ low.msb = false then [0x3F, low]
    else if top = 0xF ∧ mid.msb = true then [mid, low]
    else [mid, top.setWidth 6, low]
  else
    if top = 0x0 ∧ mid = 0x00 ∧ low.msb = false then [low]
    else if top = 0x0 ∧ mid = 0x00 ∧ low.msb = true then [0x00, low]
    else if top = 0x0 ∧ mid.msb = false then [mid, low]
    else [mid, top.setWidth 6, low]

/-- `len(v)`: the number of chunks, which no opcode changes (R58). -/
def chunkLength (v : Word) : Nat := (chunks v).length

/-- The Instruction Builder (R58): a `PushA` byte for every chunk but the last, then the opcode with the last. -/
def buildRawInstructions (cfg : Config) (opcode : BitVec 2) : List Chunk → List Byte
  | [] => []
  | [c] => [assembleOneRawInstruction opcode c.toNat]
  | c :: c' :: rest =>
    assembleOneRawInstruction cfg.opcPushA c.toNat :: buildRawInstructions cfg opcode (c' :: rest)

/-- The instruction a `MoveOp` names, with its data field. -/
def MoveOp.instr : MoveOp → Chunk → Instr
  | .aMovD, data => .aMovD data
  | .asMovD, data => .asMovD data
  | .dMovAs, data => .dMovAs data

/-- The opcode number of a `MoveOp` (R51). -/
def MoveOp.opcode (cfg : Config) : MoveOp → BitVec 2
  | .aMovD => cfg.opcAMovD
  | .asMovD => cfg.opcAsMovD
  | .dMovAs => cfg.opcDMovAs

/-- R58's `encode(opcode, v)`: the one to three bytes that spell `v` for a non-push opcode. -/
def encodeValue (cfg : Config) (op : MoveOp) (v : Word) : List Byte :=
  buildRawInstructions cfg (op.opcode cfg) (chunks v)

end Sys2Proof
end

