-- ==== Sys2Proof/Machine/Memory.lean ====
section
/-! DEFINITION. Byte memories in their one canonical form, and what is laid out in them at reset and by the ROM load
(spec/10_state.md R15, R16, R29, spec/20_memory.md R49). -/

namespace Sys2Proof

/-- What an address that a memory does not list reads as: 0x00 (R29, R16, R49, R87). -/
def Memory.unlisted : Byte := 0

/-- The byte at an address. -/
def Memory.get : Memory → Nat → Byte
  | [], _ => Memory.unlisted
  | c :: m, a => if c.1 = a then c.2 else Memory.get m a

/-- Put a cell before the first cell of a greater address. -/
def Memory.insertCell (a : Nat) (b : Byte) : Memory → Memory
  | [] => [(a, b)]
  | c :: m => if a < c.1 then (a, b) :: c :: m else c :: Memory.insertCell a b m

/-- Take every cell of an address out. -/
def Memory.erase (m : Memory) (a : Nat) : Memory := m.filter fun c => c.1 != a

/-- Store a byte. Storing what an unlisted address reads as leaves the address unlisted. -/
def Memory.set (m : Memory) (a : Nat) (b : Byte) : Memory :=
  if b = Memory.unlisted then Memory.erase m a else Memory.insertCell a b (Memory.erase m a)

/-- The canonical form: addresses strictly rising, no entry equal to what an unlisted address reads as. -/
abbrev Memory.wf (m : Memory) : Prop :=
  m.Pairwise (fun c c' => c.1 < c'.1) ∧ ∀ c ∈ m, c.2 ≠ Memory.unlisted

/-- RAM after reset (R29): zero but for bytes 0 and 1, which hold `RESET_IP`. -/
def Memory.resetRam (ip : Word) : Memory :=
  Memory.set (Memory.set [] 0 (ip.extractLsb' 0 8)) 1 (ip.extractLsb' 8 8)

/-- The ROM load (R49): `rom[i] <- image[0x8000 + i]` for i in 0..0x7FFF; the lower half of the image goes nowhere
(D13). -/
def Memory.romOfImage (image : Memory) : Memory :=
  (image.filter fun c => decide (0x8000 ≤ c.1 ∧ c.1 < 0x10000)).map fun c => (c.1 - 0x8000, c.2)

end Sys2Proof
end

