-- ==== Sys2Proof/Machine/State.lean ====
section
/-! DEFINITION. The state of the processor core (spec/10_state.md R11), the reasons a step can stop (none), and reset
(R29, R107). -/

namespace Sys2Proof.Machine

/-- The four warnings of spec/60_exceptions.md R95, with the information R95 says each records. -/
inductive Warning where
  /-- More than two pushes stood before a non-push instruction; `n` is the push count. -/
  | tooManyPushes (n : Nat)
  /-- A byte was read at an address of 0x10000 or above. -/
  | outOfRangeRead (a : Nat)
  /-- A byte was written at an address of 0x10000 or above. -/
  | outOfRangeWrite (a : Nat)
  /-- A byte was written at a ROM address. -/
  | romWrite (a : Nat)
  deriving DecidableEq, Repr

/-- One call of the host's I/O handler (R34), by its 14-bit relative address. -/
inductive HostCall where
  /-- `io_read(r)`, with the byte the host answered. -/
  | read (r : BitVec 14) (answer : Byte)
  /-- `io_write(r, b)`. -/
  | write (r : BitVec 14) (b : Byte)
  deriving DecidableEq, Repr

/-- Why a step faults. There is no reason: the core "raises no exception" (R94) and `Step` "never faults, never stalls
and never refuses" (R66). Safe: a type without a constructor says so to every proof. -/
inductive Fault where
  deriving DecidableEq, Repr

/-- Why an instruction is refused. -/
inductive Refusal where
  /-- The instruction has no meaning in this model; raised by `exec` alone, and by no arm of it now. Safe: the machine
  stops where the hardware goes on. -/
  | notModelled (mnemonic : String)
  deriving DecidableEq, Repr

/-- The complete state of the core (R11), then what stands beside it in a closed model: the parameters (R6) and the
host's side of the I/O handler (R30, R34). -/
@[ext]
structure State where
  /-- `A`, the accumulator (R12). -/
  A : Word
  /-- The push count (R13, unbounded: D28). -/
  n : Nat
  /-- `D`, the data register (R14). -/
  D : Word
  /-- RAM by index 0..0x3FFF; bytes 0..5 are IP, Loop and Indirect, and no byte stands at 6 and 7 (R15, R17, D11). -/
  ram : Memory
  /-- ROM by index 0..0x7FFF, mapped at 0x8000 (R16). -/
  rom : Memory
  /-- Armed: sixteen-wide (R24). -/
  f16 : Bool
  /-- Armed: load-indirect (R24). -/
  fli : Bool
  /-- Armed: store-indirect (R24). -/
  fsi : Bool
  /-- Armed: inhibit-if-zero (R24). -/
  finh : Bool
  /-- The frame-wait flag, for the host (R25). -/
  fw : Bool
  /-- The warning log, oldest first (R26). -/
  warnings : List Warning
  /-- The parameters of R6. No step changes them. -/
  config : Config
  /-- MODEL's own (R30, D18): the bytes the host's handler will answer to the coming `io_read` calls, in order. After
  the last, and with no handler, a read answers 0xEA (R35). -/
  hostAnswers : List Byte
  /-- MODEL's own (R34, R43): the calls the host has seen, oldest first. -/
  hostCalls : List HostCall
  deriving DecidableEq, Repr

/-- Reset with given parameters and a given image (R107): R29's values, then the ROM load of R49. The handler is the
source's default, none (R35). -/
def State.resetWith (cfg : Config) (image : Memory) : State :=
  { A := 0, n := 0, D := 0
    ram := Memory.resetRam cfg.resetIP
    rom := Memory.romOfImage image
    f16 := false, fli := false, fsi := false, finh := false
    fw := false, warnings := []
    config := cfg, hostAnswers := [], hostCalls := [] }

/-- The machine right after reset (R29), with the default parameters and nothing loaded. -/
def State.reset : State := State.resetWith Config.default []

end Sys2Proof.Machine
end

