-- ==== Sys2Proof/Machine/Flags.lean ====
section
/-! DEFINITION. The four armed flags and the frame-wait flag: how a Flow byte sets them and how a data move uses them up
(spec/10_state.md R23 to R25, spec/42_flow_register.md R74, R76, R77, spec/41_data_moves.md R73). The machine has no
condition codes (R4). -/

namespace Sys2Proof.Machine

/-- Bit `i` of a Flow byte. -/
def flowBit (b : Byte) (i : Fin 8) : Bool := b.getLsbD i.val

/-- The arming half of `FlowWrite` (R74, R76, R77): a set bit sets its flag, a clear bit leaves it (D10); `fw` is set
alike (D3). -/
def State.armFrom (s : State) (b : Byte) : State :=
  { s with
    f16 := s.f16 || flowBit b s.config.fbSixteen
    finh := s.finh || flowBit b s.config.fbInhibit
    fli := s.fli || flowBit b s.config.fbLoadInd
    fsi := s.fsi || flowBit b s.config.fbStoreInd
    fw := s.fw || flowBit b s.config.fbFrameWait }

/-- Clear what an `AsMovD` qualifies for: load-indirect and sixteen-wide (R70, R73). -/
def State.consumeLoadFlags (s : State) : State := { s with fli := false, f16 := false }

/-- Clear what a `DMovAs` qualifies for: store-indirect, inhibit-if-zero and sixteen-wide (R71, R73). -/
def State.consumeStoreFlags (s : State) : State := { s with fsi := false, finh := false, f16 := false }

end Sys2Proof.Machine
end

