-- ==== Sys2Proof/Machine/Ops.lean ====
section
/-! DEFINITION. The named operations over memory and the register window: window registers, counters, views, warnings,
host callbacks, `FlowWrite`, `Read8`, `Write8`, `MemRead`, `MemWrite` (spec/10_state.md, spec/20_memory.md,
spec/42_flow_register.md).

Taking an exception and returning from one have no operation here, because the machine has neither: no exception, no
trap entry, no saved state, no trap return (spec/60_exceptions.md R94, R98, R99). What stands in their place is `warn`. -/

namespace Sys2Proof.Machine

/-- The stored byte `ram[i]`, without side effects (R8). -/
def State.ramByte (s : State) (i : Nat) : Byte := Memory.get s.ram i

/-- The stored byte `rom[i]`, without side effects (R8). -/
def State.romByte (s : State) (i : Nat) : Byte := Memory.get s.rom i

/-- `ram[i] <- b`, without side effects (R8). -/
def State.setRam (s : State) (i : Nat) (b : Byte) : State := { s with ram := Memory.set s.ram i b }

/-- `warn W`: append to the warning log and go on (R95). -/
def State.warn (s : State) (w : Warning) : State := { s with warnings := s.warnings ++ [w] }

/-- The pair of RAM bytes at `i` (low) and `i + 1` (high), as one 16-bit value (R39). -/
def State.ramPair (s : State) (i : Nat) : Word := s.ramByte (i + 1) ++ s.ramByte i

/-- IP: `ram[1] || ram[0]` (R18). -/
def State.pc (s : State) : Word := s.ramPair 0

/-- Loop: `ram[3] || ram[2]` (R19). -/
def State.loop (s : State) : Word := s.ramPair 2

/-- Indirect: `ram[5] || ram[4]` (R20). -/
def State.ind (s : State) : Word := s.ramPair 4

/-- `pc <- t` (R8). -/
def State.setPc (s : State) (t : Word) : State := (s.setRam 0 (t.extractLsb' 0 8)).setRam 1 (t.extractLsb' 8 8)

/-- The carrying increment (R27). -/
def State.counterUp (s : State) (i : Nat) : State :=
  let s' := s.setRam i (s.ramByte i + 1)
  if s'.ramByte i = 0x00 then s'.setRam (i + 1) (s'.ramByte (i + 1) + 1) else s'

/-- The carrying decrement (R28). -/
def State.counterDown (s : State) (i : Nat) : State :=
  let s' := s.setRam i (s.ramByte i - 1)
  if s'.ramByte i = 0xFF then s'.setRam (i + 1) (s'.ramByte (i + 1) - 1) else s'

/-- The NAND view at address 0x6 (R21). -/
def State.nandView (s : State) : Byte := ~~~(s.ramByte 4 &&& s.ramByte 5)

/-- The right rotation of a byte by `k` places (R22, D4). -/
def ror8 (x : Byte) (k : Fin 8) : Byte := (x >>> k.val) ||| (x <<< (8 - k.val))

/-- The rotate view at address 0x7 (R22). -/
def State.rotateView (s : State) : Byte := ror8 (s.ramByte 4) s.config.rotN

/-- What an I/O read answers with no handler (R35). -/
def noHandlerByte : Byte := 0xEA

/-- `io_read(r)` (R34): the host's next answer, and the call on record. -/
def State.hostRead (s : State) (r : BitVec 14) : Byte × State :=
  let b := s.hostAnswers.headD noHandlerByte
  (b, { s with hostAnswers := s.hostAnswers.tail, hostCalls := s.hostCalls ++ [.read r b] })

/-- `io_write(r, b)` (R34): the call on record; the core keeps nothing else of it. -/
def State.hostWrite (s : State) (r : BitVec 14) (b : Byte) : State :=
  { s with hostCalls := s.hostCalls ++ [.write r b] }

/-- The 14-bit I/O-relative address of an address in the I/O region: `a - 0x4000` (R34). -/
def ioAddress (a : Nat) : BitVec 14 := BitVec.ofNat 14 (a - 0x4000)

/-- The immediate half of `FlowWrite` (R74, R75): loop-down, indirect-up, indirect-down, in that order (D26). -/
def State.flowCounters (s : State) (b : Byte) : State :=
  let s₁ := if flowBit b s.config.fbLoopDown then s.counterDown 2 else s
  let s₂ := if flowBit b s.config.fbIndUp then s₁.counterUp 4 else s₁
  if flowBit b s.config.fbIndDown then s₂.counterDown 4 else s₂

/-- `FlowWrite(b)`: the effects of a byte written to address 0x7 (R74). The byte itself is stored nowhere. -/
def State.flowWrite (s : State) (b : Byte) : State := (s.flowCounters b).armFrom b

/-- `Read8(a)` (R32), cases in its order. -/
def State.read8 (s : State) (a : Nat) : Byte × State :=
  if 0x10000 ≤ a then (0x00, s.warn (.outOfRangeRead a))
  else if 0x8000 ≤ a then (s.romByte (a - 0x8000), s)
  else if 0x4000 ≤ a then s.hostRead (ioAddress a)
  else if a = 0x6 then (s.nandView, s)
  else if a = 0x7 then (s.rotateView, s)
  else (s.ramByte a, s)

/-- `Write8(a, b)` (R33), cases in its order. -/
def State.write8 (s : State) (a : Nat) (b : Byte) : State :=
  if 0x10000 ≤ a then s.warn (.outOfRangeWrite a)
  else if 0x8000 ≤ a then s.warn (.romWrite a)
  else if 0x4000 ≤ a then s.hostWrite (ioAddress a) b
  else if a = 0x6 then s
  else if a = 0x7 then s.flowWrite b
  else s.setRam a b

/-- `MemRead(a, 2)` when wide, else `MemRead(a, 1)` (R38): low byte first, `a + 1` without wrap-around, a single byte
zero-extended. -/
def State.memRead (s : State) (a : Word) (wide : Bool) : Word × State :=
  let lo := s.read8 a.toNat
  if wide then
    let hi := lo.2.read8 (a.toNat + 1)
    (hi.1 ++ lo.1, hi.2)
  else (lo.1.setWidth 16, lo.2)

/-- `MemWrite(a, 2, v)` when wide, else `MemWrite(a, 1, v)` (R38): low byte first, `a + 1` without wrap-around. -/
def State.memWrite (s : State) (a : Word) (wide : Bool) (v : Word) : State :=
  let s₁ := s.write8 a.toNat (v.extractLsb' 0 8)
  if wide then s₁.write8 (a.toNat + 1) (v.extractLsb' 8 8) else s₁

end Sys2Proof.Machine
end

