-- ==== Sys2Proof/Machine/Operands.lean ====
section
/-! DEFINITION. The operand every non-push instruction assembles, and the effective addresses made of it
(spec/40_push_accumulate.md R68, spec/41_data_moves.md R70, R71). -/

namespace Sys2Proof.Machine

/-- The value `FinalA` returns (R68): 6-bit signed, 12-bit signed, or the 16 merged bits, by push count. -/
def finalValue (A : Word) (n : Nat) (data : Chunk) : Word :=
  if n = 0 then data.signExtend 16
  else if n = 1 then (A.extractLsb' 6 6 ++ data).signExtend 16
  else A.extractLsb' 6 10 ++ data

/-- `FinalA(data)` (R68): the value, with the warning when due, `A` left holding the value (D6) and the push count at
0. -/
def State.finalA (s : State) (data : Chunk) : Word × State :=
  let v := finalValue s.A s.n data
  let s₁ := if 2 < s.n then s.warn (.tooManyPushes s.n) else s
  (v, { s₁ with A := v, n := 0 })

/-- The effective address of an `AsMovD` whose operand spells `v`: Indirect when load-indirect is armed (R70). -/
def State.loadAddress (s : State) (v : Word) : Word := if s.fli then s.ind else v

/-- The effective address of a `DMovAs` whose operand spells `v`: Indirect when store-indirect is armed (R71). -/
def State.storeAddress (s : State) (v : Word) : Word := if s.fsi then s.ind else v

/-- Whether a `DMovAs` skips its store: inhibit-if-zero armed and both Loop bytes zero (R71, D25). -/
def State.storeSkipped (s : State) : Bool := s.finh && (s.ramByte 2 == 0 && s.ramByte 3 == 0)

end Sys2Proof.Machine
end

