-- ==== Sys2Proof/Machine/Moves.lean ====
section
/-! DEFINITION. The meanings of the three data moves (spec/41_data_moves.md R69, R70, R71). A store to address 0x0 or 0x1
is the machine's only control transfer (R72) and needs nothing of its own: IP is those two bytes. -/

namespace Sys2Proof.Machine

/-- `AMovD data` (R69). -/
def execAMovD (data : Chunk) (s : State) : Host.Outcome State Fault Refusal :=
  let v := s.finalA data
  .next { v.2 with D := v.1 }

/-- `AsMovD data` (R70): the flags are read, then cleared, then the read is made. -/
def execAsMovD (data : Chunk) (s : State) : Host.Outcome State Fault Refusal :=
  let v := s.finalA data
  let x := v.2.consumeLoadFlags.memRead (v.2.loadAddress v.1) v.2.f16
  .next { x.2 with D := x.1 }

/-- `DMovAs data` (R71): the flags are read and cleared before the store (D9), so that what a store to Flow arms is
left for the next instruction. -/
def execDMovAs (data : Chunk) (s : State) : Host.Outcome State Fault Refusal :=
  let v := s.finalA data
  if v.2.storeSkipped then .next v.2.consumeStoreFlags
  else .next (v.2.consumeStoreFlags.memWrite (v.2.storeAddress v.1) v.2.f16 v.2.D)

end Sys2Proof.Machine
end

