-- ==== Sys2Proof/Machine/Push.lean ====
section
/-! DEFINITION. The meaning of `PushA` (spec/40_push_accumulate.md R67). -/

namespace Sys2Proof.Machine

/-- The merge of `PushA`: at an even push count `data` replaces `A[11:6]`, at an odd one `data[3:0]` replaces
`A[15:12]` (R67, R62, D5). -/
def mergeChunk (A : Word) (n : Nat) (data : Chunk) : Word :=
  if n % 2 = 0 then A.extractLsb' 12 4 ++ data ++ A.extractLsb' 0 6
  else data.extractLsb' 0 4 ++ A.extractLsb' 0 12

/-- `PushA data` (R67). -/
def execPushA (data : Chunk) (s : State) : Host.Outcome State Fault Refusal :=
  .next { s with A := mergeChunk s.A s.n data, n := s.n + 1 }

end Sys2Proof.Machine
end

