-- ==== Sys2Proof/Machine/Dispatch.lean ====
section
/-! DEFINITION. Which meaning each instruction has: one arm per row of spec/opcode_table.json. -/

namespace Sys2Proof.Machine

/-- The execution part of `Step` (R66), one arm per instruction. -/
def exec (i : Instr) (s : State) : Host.Outcome State Fault Refusal :=
  match i with
  | .pushA data => Sys2Proof.Machine.execPushA data s
  | .aMovD data => Sys2Proof.Machine.execAMovD data s
  | .asMovD data => Sys2Proof.Machine.execAsMovD data s
  | .dMovAs data => Sys2Proof.Machine.execDMovAs data s

end Sys2Proof.Machine
end

