-- ==== Sys2Proof/Machine/Fetch.lean ====
section
/-! DEFINITION. Fetching the instruction byte and advancing IP (spec/40_push_accumulate.md R66, spec/20_memory.md R42),
and placing a byte where the next fetch reads it. -/

namespace Sys2Proof.Machine

/-- The fetch of R66: `Read8(pc)`, then IP advanced by the carrying increment. -/
def State.fetch (s : State) : Byte × State :=
  let r := s.read8 s.pc.toNat
  (r.1, r.2.counterUp 0)

/-- The byte whose right rotation by `k` is `b`: its left rotation. -/
def rol8 (b : Byte) (k : Fin 8) : Byte := (b <<< k.val) ||| (b >>> (8 - k.val))

/-- Place `b` where the next fetch reads it. In ROM and RAM that is the byte at IP; in the I/O region the host's next
answer; at the two views the Indirect bytes that make the view read `b`. IP's own bytes cannot hold another value without
moving IP, so there the fetch is moved to the first ROM byte. -/
def State.placeAtFetch (s : State) (b : Byte) : State :=
  let a := s.pc.toNat
  if 0x8000 ≤ a then { s with rom := Memory.set s.rom (a - 0x8000) b }
  else if 0x4000 ≤ a then { s with hostAnswers := b :: s.hostAnswers.tail }
  else if a = 0x6 then (s.setRam 4 (~~~ b)).setRam 5 0xFF
  else if a = 0x7 then s.setRam 4 (rol8 b s.config.rotN)
  else if a < 2 then { s.setPc 0x8000 with rom := Memory.set s.rom 0 b }
  else s.setRam a b

end Sys2Proof.Machine
end

