-- ==== Sys2Proof/Machine/Step.lean ====
section
/-! DEFINITION. The one transition of the core (spec/40_push_accumulate.md R66). -/

namespace Sys2Proof.Machine

/-- `Step` (R66): fetch at IP, advance IP, decode, then act on the instruction with IP already advanced. `fw` is not
read (R25). -/
def step (s : State) : Host.Outcome State Fault Refusal :=
  let f := s.fetch
  exec (decodeByte s.config f.1) f.2

/-- `s` with an instruction of `nbits` bits `w` stored where `step` fetches its next instruction (one byte, R50). At
reset that is ROM byte 0: withFetchWord stands for the host's ROM load (R49). -/
def State.withFetchWord (s : State) (nbits w : Nat) : State := s.placeAtFetch (BitVec.ofNat 8 (w % 2 ^ nbits))

end Sys2Proof.Machine
end

