-- ==== Sys2Proof/Machine/Assembler.lean ====
section
/-! DEFINITION. The three-pass symbolic assembler (spec/45_assembler.md R82 to R92). It shares no state with the core
(R9): a pure function from a program tree to a 64 KiB image. Its spacing drift on forward references (R90) is kept. -/

namespace Sys2Proof

/-- Inputs the source does not define, refused rather than guessed (R92). -/
inductive AsmRefusal where
  /-- Two `AtLabel` leaves carry this name (D20). -/
  | duplicateLabel (name : String)
  /-- An `AtOrigin` address outside 0..0xFFFF (D21). -/
  | originOutOfRange (address : Int)
  /-- A byte would be spaced or written above 0xFFFF by the statement met at this origin (D21). -/
  | pastImageEnd (org : Nat)
  /-- An `AtLabel` met with the origin counter at 0x10000 (D21). -/
  | labelPastImageEnd (name : String)
  deriving DecidableEq, Repr

/-- Why `assemble` gives no image. -/
inductive AsmStop where
  /-- The assembler's one error: a reference to a label no leaf defines (R89). -/
  | unresolvedLabel (name : String)
  /-- The input is outside what the spec defines (R92). -/
  | refused (reason : AsmRefusal)
  deriving DecidableEq, Repr

/-- The label table (R83). -/
abbrev LabelTable := List (String × Word)

/-- The address a table holds for a name. -/
def LabelTable.find : LabelTable → String → Option Word
  | [], _ => none
  | e :: t, name => if e.1 = name then some e.2 else LabelTable.find t name

/-- `table[name] <- v`: overwrites the entry of the name, or adds one. -/
def LabelTable.put (t : LabelTable) (name : String) (v : Word) : LabelTable :=
  match t with
  | [] => [(name, v)]
  | e :: t' => if e.1 = name then (name, v) :: t' else e :: LabelTable.put t' name v

mutual
/-- The leaves of a tree, depth first and left to right (R84). -/
def Tree.flatten : Tree → List Leaf
  | .leaf l => [l]
  | .seq ts => Tree.flattenAll ts
/-- The leaves of a list of trees, in order (R84). -/
def Tree.flattenAll : List Tree → List Leaf
  | [] => []
  | t :: ts => Tree.flatten t ++ Tree.flattenAll ts
end

/-- Operand resolution (R82, R89). -/
def Operand.resolve (t : LabelTable) : Operand → Except AsmStop Word
  | .lit v => .ok (BitVec.ofInt 16 v)
  | .labelRef name =>
    match t.find name with
    | some v => .ok v
    | none => .error (.unresolvedLabel name)

/-- Advance an origin counter over `len` bytes; a byte at 0x10000 or above is refused (R92). -/
def advance (org len : Nat) : Except AsmStop Nat :=
  if len = 0 ∨ org + len ≤ 0x10000 then .ok (org + len) else .error (.refused (.pastImageEnd org))

/-- `AtOrigin`'s new origin counter; an address outside 0..0xFFFF is refused (R92). -/
def setOrigin (address : Int) : Except AsmStop Nat :=
  if 0 ≤ address ∧ address ≤ 0xFFFF then .ok address.toNat else .error (.refused (.originOutOfRange address))

/-- Pass 1 (R85): every label name, with the sentinel. -/
def pass1 (sentinel : Word) : List Leaf → LabelTable → LabelTable
  | [], t => t
  | .atLabel name :: ls, t => pass1 sentinel ls (t.put name sentinel)
  | .rawData _ :: ls, t => pass1 sentinel ls t
  | .atOrigin _ :: ls, t => pass1 sentinel ls t
  | .descriptor _ _ :: ls, t => pass1 sentinel ls t

/-- What pass 2 does at one leaf (R86). -/
def spaceLeaf (org : Nat) (t : LabelTable) : Leaf → Except AsmStop (Nat × LabelTable)
  | .atOrigin a => do return (← setOrigin a, t)
  | .rawData bytes => do return (← advance org bytes.length, t)
  | .atLabel name =>
    if org ≤ 0xFFFF then .ok (org, t.put name (BitVec.ofNat 16 org))
    else .error (.refused (.labelPastImageEnd name))
  | .descriptor _ x => do
    let v ← x.resolve t
    return (← advance org (chunkLength v), t)

/-- Pass 2 (R86): spacing. A reference reads the table as it stands, so a forward reference reads the sentinel. -/
def pass2 : List Leaf → Nat → LabelTable → Except AsmStop (Nat × LabelTable)
  | [], org, t => .ok (org, t)
  | l :: ls, org, t => do
    let (org', t') ← spaceLeaf org t l
    pass2 ls org' t'

/-- Write bytes into the image from `org` on, each at the next address (R87). -/
def emitBytes (image : Memory) (org : Nat) : List Byte → Memory
  | [] => image
  | b :: bs => emitBytes (Memory.set image org b) (org + 1) bs

/-- Write bytes into the image and advance the origin counter by their number. -/
def emitAt (org : Nat) (image : Memory) (bytes : List Byte) : Except AsmStop (Nat × Memory) := do
  return (← advance org bytes.length, emitBytes image org bytes)

/-- What pass 3 does at one leaf (R87). -/
def emitLeaf (cfg : Config) (t : LabelTable) (org : Nat) (image : Memory) : Leaf → Except AsmStop (Nat × Memory)
  | .atOrigin a => do return (← setOrigin a, image)
  | .rawData bytes => emitAt org image bytes
  | .atLabel _ => .ok (org, image)
  | .descriptor op x => do
    let v ← x.resolve t
    emitAt org image (encodeValue cfg op v)

/-- Pass 3 (R87): emission, with a fresh origin counter that advances by the bytes written. -/
def pass3 (cfg : Config) (t : LabelTable) : List Leaf → Nat → Memory → Except AsmStop (Nat × Memory)
  | [], org, image => .ok (org, image)
  | l :: ls, org, image => do
    let (org', image') ← emitLeaf cfg t org image l
    pass3 cfg t ls org' image'

/-- The first name that stands twice in a list. -/
def firstDuplicate : List String → Option String
  | [] => none
  | name :: names => if name ∈ names then some name else firstDuplicate names

/-- The three passes over a flattened program (R88). Duplicate names are refused before the passes (R92, D20). -/
def assembleLeaves (cfg : Config) (ls : List Leaf) : Except AsmStop Memory :=
  match firstDuplicate (Leaf.labels ls) with
  | some name => .error (.refused (.duplicateLabel name))
  | none => do
    let (_, t) ← pass2 ls 0 (pass1 cfg.labelSentinel ls [])
    let (_, image) ← pass3 cfg t ls 0 []
    return image

/-- `assemble(tree)` (R88): the 64 KiB image, bytes that nothing wrote 0x00, or the reason there is none. -/
def assemble (cfg : Config) (tree : Tree) : Except AsmStop Memory := assembleLeaves cfg tree.flatten

end Sys2Proof
end

