-- ==== Sys2Proof/Machine/HostPort.lean ====
section
/-! DEFINITION. What the host may do to the core between steps (spec/60_exceptions.md R102, R105, spec/20_memory.md R34,
R49). Answering `io_read` and receiving `io_write` happen inside a step (`State.hostRead`, `State.hostWrite`). -/

namespace Sys2Proof.Machine

/-- The ROM load, made once before the first step (R49). -/
def State.loadRom (s : State) (image : Memory) : State := { s with rom := Memory.romOfImage image }

/-- Supply the I/O handler: the bytes it will answer, in call order (R34, R109). -/
def State.attachHandler (s : State) (answers : List Byte) : State := { s with hostAnswers := answers }

/-- The host's frame tick: it clears `fw`, and nothing of the core changes besides (R105, D29). -/
def State.frameTick (s : State) : State := { s with fw := false }

/-- Assemble a program and reset the machine with its image (R107, R49). -/
def State.boot (cfg : Config) (tree : Tree) : Except AsmStop State := do
  return State.resetWith cfg (← assemble cfg tree)

/-- A well-behaved host's frame (R105): step until `fw` is set, at most `k` times. -/
def runFrame : Nat → State → Host.Outcome State Fault Refusal
  | 0, s => .next s
  | k + 1, s =>
    if s.fw then .next s
    else
      match step s with
      | .next t => runFrame k t
      | .fault r => .fault r
      | .refused r => .refused r

end Sys2Proof.Machine
end

