-- ==== Sys2Proof/Safety.lean ====
section
/-! DEFINITION. The terms claims are stated in: the state invariant, runs, warnings, self-loops, flag discipline, and
states alike but for a stale accumulator. -/

namespace Sys2Proof.Machine

/-- The canonical form of the two memories: RAM lists addresses below 0x4000 and none of the views (R15, D11), ROM
indexes below 0x8000 (R16). -/
abbrev State.WellFormed (s : State) : Prop :=
  (Memory.wf s.ram ∧ ∀ c ∈ s.ram, c.1 < 0x4000 ∧ c.1 ≠ 6 ∧ c.1 ≠ 7) ∧
    (Memory.wf s.rom ∧ ∀ c ∈ s.rom, c.1 < 0x8000)

/-- `k` steps from `s` end in `t`. -/
abbrev Runs (k : Nat) (s t : State) : Prop := Host.Core.run Sys2Proof.core k s = .next t

/-- Execute a list of instructions one after another, without the fetches: R59's "bytes executed". -/
def execAll : List Instr → State → Host.Outcome State Fault Refusal
  | [], s => .next s
  | i :: is, s =>
    match exec i s with
    | .next t => execAll is t
    | .fault r => .fault r
    | .refused r => .refused r

/-- The byte at an address, as a read finds it, for the addresses whose read does not call the host (R32). -/
def State.peek (s : State) (a : Nat) : Byte :=
  if 0x10000 ≤ a then 0x00
  else if 0x8000 ≤ a then s.romByte (a - 0x8000)
  else if a = 0x6 then s.nandView
  else if a = 0x7 then s.rotateView
  else s.ramByte a

/-- No armed flag. -/
abbrev State.Unarmed (s : State) : Prop := s.f16 = false ∧ s.fli = false ∧ s.fsi = false ∧ s.finh = false

/-- The addresses a `DMovAs data` stores to (R71): none when the store is skipped, else the effective address and, when
sixteen-wide, the address after it, without wrap-around (R38). -/
def State.storedAddresses (s : State) (data : Chunk) : List Nat :=
  let ea := (s.storeAddress (finalValue s.A s.n data)).toNat
  if s.storeSkipped then [] else if s.f16 then [ea, ea + 1] else [ea]

/-- Whether an instruction writes the Flow register (R74): a `DMovAs` that stores to address 0x7. -/
def writesFlow (i : Instr) (s : State) : Prop :=
  match i with
  | .pushA _ => False
  | .aMovD _ => False
  | .asMovD _ => False
  | .dMovAs data => 7 ∈ s.storedAddresses data

/-- What `FinalA` appends to the warning log at push count `n` (R68). -/
def pushWarnings (n : Nat) : List Warning := if 2 < n then [.tooManyPushes n] else []

/-- Whether a host call is a read. -/
def HostCall.isRead : HostCall → Bool
  | .read _ _ => true
  | .write _ _ => false

/-- An address whose read does not call the host. -/
abbrev NotIo (a : Nat) : Prop := a < 0x4000 ∨ 0x8000 ≤ a

/-- An address of the I/O region (R31). -/
abbrev IsIo (a : Nat) : Prop := 0x4000 ≤ a ∧ a < 0x8000

/-- The premise of spec/93_implementation_defined.md U6 at one instruction: a data move with memory reads every flag that
is armed. -/
def readsEveryArmedFlag (i : Instr) (s : State) : Prop :=
  match i with
  | .pushA _ => True
  | .aMovD _ => True
  | .asMovD _ => s.fsi = false ∧ s.finh = false
  | .dMovAs _ => s.fli = false

/-- The end of a run (R120): some number of steps leads back to the same state. The logs of warnings and host calls are
part of the state, so such steps make no warning and no call. -/
def State.SelfLoop (s : State) : Prop := ∃ k, 0 < k ∧ Runs k s s

/-- Two states alike but for bits of `A` that no `PushA` wrote since the last non-push instruction (R12). -/
abbrev AlikeButStaleA (s t : State) : Prop :=
  { s with A := t.A } = t ∧
    (1 ≤ s.n → s.A.extractLsb' 6 6 = t.A.extractLsb' 6 6) ∧
    (2 ≤ s.n → s.A.extractLsb' 12 4 = t.A.extractLsb' 12 4)

/-- The bytes a list holds stand in ROM from address `a` on. -/
abbrev State.RomHolds (s : State) (a : Nat) (bytes : List Byte) : Prop :=
  0x8000 ≤ a ∧ a + bytes.length ≤ 0x10000 ∧ ∀ k (h : k < bytes.length), s.romByte (a - 0x8000 + k) = bytes[k]

end Sys2Proof.Machine

namespace Sys2Proof

/-- Every reference names a label that stands earlier in the list, or in `seen` (no forward reference, R86). -/
def Leaf.backwardOnly (seen : List String) : List Leaf → Prop
  | [] => True
  | .atLabel name :: ls => Leaf.backwardOnly (name :: seen) ls
  | .descriptor _ (.labelRef name) :: ls => name ∈ seen ∧ Leaf.backwardOnly seen ls
  | .descriptor _ (.lit _) :: ls => Leaf.backwardOnly seen ls
  | .rawData _ :: ls => Leaf.backwardOnly seen ls
  | .atOrigin _ :: ls => Leaf.backwardOnly seen ls

/-- How many bytes fewer pass 3 emits for a forward reference to address `t` than pass 2 spaced (R90's `d`). -/
def drift (cfg : Config) (t : Word) : Int := (chunkLength cfg.labelSentinel : Int) - (chunkLength t : Int)

/-- The drift gathered over a list of leaves (R90): every forward reference, one whose label is not in `seen` when it is
met, adds the drift of its label's final address; an `AtOrigin` ends all drift before it. -/
def Leaf.driftOver (cfg : Config) (t : LabelTable) (seen : List String) (d : Int) : List Leaf → Int
  | [] => d
  | .atOrigin _ :: ls => Leaf.driftOver cfg t seen 0 ls
  | .atLabel name :: ls => Leaf.driftOver cfg t (name :: seen) d ls
  | .rawData _ :: ls => Leaf.driftOver cfg t seen d ls
  | .descriptor _ (.lit _) :: ls => Leaf.driftOver cfg t seen d ls
  | .descriptor _ (.labelRef name) :: ls =>
    if name ∈ seen then Leaf.driftOver cfg t seen d ls
    else
      match t.find name with
      | some a => Leaf.driftOver cfg t seen (d + drift cfg a) ls
      | none => Leaf.driftOver cfg t seen d ls

end Sys2Proof
end

