-- ==== Sys2Proof/Certificates/Slice0/Obligations.lean ====
section
/-! DEFINITION. The statements for the provers. A docstring names the rule of spec/ a statement formalises; where a clause
is a decision of the spec (D<n> of spec/92_eei_decisions.md) or its own derivation, the docstring says so. Parameters
(opcode numbers, Flow bit positions, ROT_N, RESET_IP, sentinel) are never at a default value unless the name says so. -/

open Sys2Proof Sys2Proof.Machine

/-! ### Encoding -/

/-- R50, R57: the decoder reads back every instruction of every family, with every data value, under every opcode
numbering R6 admits, and leaves what follows. -/
def Obligations.DecodeOfEncode : Prop :=
  ∀ (cfg : Config) (i : Instr) (rest : List Byte), cfg.OpcodesDistinct → i.WellFormed →
    decode cfg (encode cfg i ++ rest) = .ok (i, rest)

/-- R51: the four opcodes fill the 2-bit space, so every byte is the byte of the instruction it decodes to. -/
def Obligations.EncodeOfDecode : Prop :=
  ∀ (cfg : Config) (b : Byte), cfg.OpcodesDistinct → encodeByte cfg (decodeByte cfg b) = b

/-- Words written out from the table under the default opcode numbers (decision D1, notes/assumptions/1.md). -/
def Obligations.ListedWordsDecode : Prop :=
  decodeTableWord 8 0b00111111 = some (.pushA 0x3F) ∧ decodeTableWord 8 0b01111111 = some (.aMovD 0x3F) ∧
    decodeTableWord 8 0b10000110 = some (.asMovD 6) ∧ decodeTableWord 8 0b11000111 = some (.dMovAs 7)

/-- R57: the packing, in numbers: opcode times 64 plus the data modulo 64. -/
def Obligations.RawInstructionPacking : Prop :=
  ∀ (opcode : BitVec 2) (data : Nat), (assembleOneRawInstruction opcode data).toNat = opcode.toNat * 64 + data % 64

/-- R54: the chunk lists of negative values, with the signed ranges and counts of its table. -/
def Obligations.ChunksOfNegativeValues : Prop :=
  ∀ v : Word, v.msb = true →
    let top := v.toNat / 4096
    let mid := v.toNat / 64 % 64
    let low := v.toNat % 64
    let c := (chunks v).map (·.toNat)
    (-32 ≤ v.toInt → c = [low]) ∧
      (-64 ≤ v.toInt ∧ v.toInt < -32 → c = [0x3F, low]) ∧
      (-2048 ≤ v.toInt ∧ v.toInt < -64 → c = [mid, low]) ∧
      (v.toInt < -2048 → c = [mid, top, low]) ∧
      (-32 ≤ v.toInt ↔ top = 0xF ∧ mid = 0x3F ∧ 32 ≤ low) ∧
      (-64 ≤ v.toInt ↔ top = 0xF ∧ mid = 0x3F) ∧
      (-2048 ≤ v.toInt ↔ top = 0xF ∧ 32 ≤ mid)

/-- R55, R53 (both bit-5 tests inverted is the spec's reading C10, notes/assumptions/24.md): the chunk lists of non-negative
values, with the signed ranges and counts of the table. -/
def Obligations.ChunksOfNonNegativeValues : Prop :=
  ∀ v : Word, v.msb = false →
    let top := v.toNat / 4096
    let mid := v.toNat / 64 % 64
    let low := v.toNat % 64
    let c := (chunks v).map (·.toNat)
    (v.toInt ≤ 31 → c = [low]) ∧
      (31 < v.toInt ∧ v.toInt ≤ 63 → c = [0x00, low]) ∧
      (63 < v.toInt ∧ v.toInt ≤ 2047 → c = [mid, low]) ∧
      (2047 < v.toInt → c = [mid, top, low]) ∧
      (v.toInt ≤ 31 ↔ top = 0x0 ∧ mid = 0x00 ∧ low < 32) ∧
      (v.toInt ≤ 63 ↔ top = 0x0 ∧ mid = 0x00) ∧
      (v.toInt ≤ 2047 ↔ top = 0x0 ∧ mid < 32)

/-- R56: one chunk for -32..31, two for the other values of -2048..2047, three for the rest. R56 is the spec's derivation
from R54, R55 and R59. -/
def Obligations.ChunkCountThresholds : Prop :=
  ∀ v : Word, chunkLength v =
    if -32 ≤ v.toInt ∧ v.toInt ≤ 31 then 1 else if -2048 ≤ v.toInt ∧ v.toInt ≤ 2047 then 2 else 3

/-- R56: the count is the least number of chunks that spell the value. R56 is the spec's derivation. -/
def Obligations.ChunkCountMinimal : Prop :=
  ∀ v : Word, ((∃ d : Chunk, d.signExtend 16 = v) ↔ chunkLength v = 1) ∧
    ((∃ p d : Chunk, (p ++ d).signExtend 16 = v) ↔ chunkLength v ≤ 2) ∧ chunkLength v ≤ 3

/-- R58: a `PushA` byte for every chunk except the last, in the order of the list, then the opcode with the last; the
whole encoder is that of `chunks v`, and its length is the number of chunks, whatever the opcode. So a three-chunk value
gives `PushA mid; PushA top; <op> low`, a two-chunk value `PushA mid; <op> low`, a one-chunk value `<op> low`. -/
def Obligations.BuilderPushesThenOpcode : Prop :=
  (∀ (cfg : Config) (opcode : BitVec 2) (pushes : List Chunk) (last : Chunk),
    buildRawInstructions cfg opcode (pushes ++ [last]) =
      pushes.map (fun c => assembleOneRawInstruction cfg.opcPushA c.toNat) ++
        [assembleOneRawInstruction opcode last.toNat]) ∧
    ∀ (cfg : Config) (op : MoveOp) (v : Word),
      let push (data : Nat) : Byte := assembleOneRawInstruction cfg.opcPushA data
      let final : Byte := assembleOneRawInstruction (op.opcode cfg) (v.toNat % 64)
      let top := v.toNat / 4096
      let mid := v.toNat / 64 % 64
      encodeValue cfg op v = buildRawInstructions cfg (op.opcode cfg) (chunks v) ∧
        (encodeValue cfg op v).length = (chunks v).length ∧
        ((chunks v).length = 3 → encodeValue cfg op v = [push mid, push top, final]) ∧
        ((chunks v).length = 2 → encodeValue cfg op v = [push mid, final]) ∧
        ((chunks v).length = 1 → encodeValue cfg op v = [final])

/-- R58: the length of `encode(opcode, v)` is `len(v)`, from 1 to 3, whatever the opcode. -/
def Obligations.EncodingLength : Prop :=
  ∀ (cfg : Config) (op : MoveOp) (v : Word),
    (encodeValue cfg op v).length = chunkLength v ∧ 1 ≤ chunkLength v ∧ chunkLength v ≤ 3

/-- R52: the decoder reads bytes until one whose opcode is not `OPC_PUSHA`; that byte ends the sequence. -/
def Obligations.SequenceEndsAtFirstNonPush : Prop :=
  ∀ (cfg : Config) (pushes : List Byte) (b : Byte) (rest : List Byte),
    (∀ p ∈ pushes, opField p = cfg.opcPushA) →
      sequenceLength cfg pushes = none ∧
        (opField b ≠ cfg.opcPushA → sequenceLength cfg (pushes ++ b :: rest) = some (pushes.length + 1))

/-- R60, for every value and every non-push opcode: from push count 0, the bytes of `encode(opcode, v)` are pushes and one
terminal byte, the pushes complete, and `FinalA` then returns `v`, with no warning. That it holds of all values is the
spec's derivation; that `A` is left holding `v` is decision D6. -/
def Obligations.FinalAReturnsEncodedValue : Prop :=
  ∀ (s : State) (op : MoveOp) (v : Word), s.config.OpcodesDistinct → s.n = 0 →
    ∃ (pushes : List Instr) (last : Chunk) (t : State),
      (encodeValue s.config op v).map (decodeByte s.config) = pushes ++ [op.instr last] ∧
        execAll pushes s = .next t ∧
        t.finalA last = (v, { s with A := v })

/-- R60 of the whole machine: from push count 0, stepping through `encode(AMovD, v)` in ROM leaves `v` in `D`, push count
0, IP after the bytes, and everything else but `A` and the IP bytes as it was. The spec derives it for all values. -/
def Obligations.EncodedLiteralRunsInRom : Prop :=
  ∀ (s : State) (v : Word), s.config.OpcodesDistinct → s.n = 0 →
    s.RomHolds s.pc.toNat (encodeValue s.config .aMovD v) →
      ∃ t, Runs (chunkLength v) s t ∧ t.D = v ∧ t.n = 0 ∧
        t.pc = s.pc + BitVec.ofNat 16 (chunkLength v) ∧
        (∀ a, 2 ≤ a → t.ramByte a = s.ramByte a) ∧
        t = { s with A := t.A, D := v, ram := t.ram }

/-! ### Reset -/

/-- The reset values of R29. They are the spec's decision D12, and the default RESET_IP stands among them
(notes/assumptions/2.md). -/
def Obligations.ResetValues : Prop :=
  State.reset.A = 0 ∧ State.reset.n = 0 ∧ State.reset.D = 0 ∧ State.reset.pc = 0x8000 ∧
    State.reset.loop = 0 ∧ State.reset.ind = 0 ∧ (∀ a, 2 ≤ a → State.reset.ramByte a = 0) ∧
    (∀ a, State.reset.romByte a = 0) ∧ State.reset.Unarmed ∧ State.reset.fw = false ∧ State.reset.warnings = []

/-- R49, R107 (decision D13): the upper half of the image reaches ROM, the lower half nothing, and IP is RESET_IP. -/
def Obligations.RomLoadTakesUpperHalf : Prop :=
  ∀ (cfg : Config) (image : Memory),
    (∀ i, i < 0x8000 → (State.resetWith cfg image).romByte i = Memory.get image (0x8000 + i)) ∧
      (State.resetWith cfg image).ram = (State.resetWith cfg []).ram ∧
      (State.resetWith cfg image).pc = cfg.resetIP

/-- The model's invariant holds at reset, whatever canonical image is loaded. -/
def Obligations.ResetWellFormed : Prop :=
  State.reset.WellFormed ∧ ∀ (cfg : Config) (image : Memory), Memory.wf image → (State.resetWith cfg image).WellFormed

/-! ### Every step -/

/-- R94: no instruction, address or encoding makes `Step` do anything but complete and yield the next state. -/
def Obligations.StepAlwaysCompletes : Prop := ∀ s : State, ∃ t, step s = .next t

/-- R66 (that the fetch is `Read8` through the whole map is decision D14, notes/assumptions/14.md): `Step` reads the byte at
IP, advances IP as a 16-bit counter, then runs the instruction of the byte's opcode with the byte's data, on the state whose
IP is already advanced. It is total, and it does not read `fw`. -/
def Obligations.StepRunsDecodedInstruction : Prop :=
  ∀ s : State,
    let b := (s.read8 s.pc.toNat).1
    let u := (s.read8 s.pc.toNat).2.counterUp 0
    let op := b.extractLsb' 6 2
    let data := b.extractLsb' 0 6
    (step s = exec (decodeByte s.config b) u ∧ (decodeByte s.config b).WellFormed) ∧
      (step s =
        if op = s.config.opcPushA then exec (.pushA data) u
        else if op = s.config.opcAMovD then exec (.aMovD data) u
        else if op = s.config.opcAsMovD then exec (.asMovD data) u
        else exec (.dMovAs data) u) ∧
      u.pc = s.pc + 1 ∧ (∀ a, 2 ≤ a → u.ramByte a = s.ramByte a) ∧
      ∃ t, step s = .next t ∧ ∀ w, ∃ t', step { s with fw := w } = .next t' ∧ { t' with fw := t.fw } = t

/-- The memories keep their canonical form, and no byte is stored behind the views, through every step (R15, R16; the
canonical form is the model's own, notes/assumptions/5.md). -/
def Obligations.StepKeepsWellFormed : Prop := ∀ s t : State, s.WellFormed → step s = .next t → t.WellFormed

/-- R16: no `Step` changes `rom`, and a ROM address reads its byte. -/
def Obligations.RomIsReadOnly : Prop :=
  (∀ s t : State, step s = .next t → t.rom = s.rom) ∧
    ∀ (s : State) (a : Nat), 0x8000 ≤ a → a < 0x10000 → s.read8 a = (s.romByte (a - 0x8000), s)

/-- R6: the parameters are fixed for the machine (the model carries them in State, notes/assumptions/1.md). -/
def Obligations.ParametersNeverChange : Prop := ∀ s t : State, step s = .next t → t.config = s.config

/-- R25, R105 (decisions D3, D29): `Step` never reads `fw` and never clears it. -/
def Obligations.FrameWaitNeverRead : Prop :=
  ∀ s t : State, step s = .next t →
    (s.fw = true → t.fw = true) ∧ (s.fw = false → step { s with fw := true } = .next { t with fw := true })

/-- R97, R102, R43: a step appends at most three warnings and at most three host calls, and uses up one host answer for
each read among them, in order. The bounds are the spec's derivation. -/
def Obligations.LogsOnlyGrow : Prop :=
  ∀ s t : State, step s = .next t →
    ∃ (w : List Warning) (c : List HostCall),
      t.warnings = s.warnings ++ w ∧ w.length ≤ 3 ∧ t.hostCalls = s.hostCalls ++ c ∧ c.length ≤ 3 ∧
        t.hostAnswers = s.hostAnswers.drop (c.countP HostCall.isRead)

/-- R12: what earlier instructions left in `A` is not observable: states alike but for stale bits of `A` step to states
alike in the same way. The spec derives it from R68. -/
def Obligations.StaleAccumulatorUnobservable : Prop :=
  ∀ s s' t : State, AlikeButStaleA s s' → step s = .next t → ∃ t', step s' = .next t' ∧ AlikeButStaleA t t'

/-- R120 (decision D24): the steps of a self-loop make no warning, no host call and no change of `fw`. -/
def Obligations.SelfLoopIsSilent : Prop :=
  ∀ (s t : State) (k j : Nat), Runs k s s → j ≤ k → Runs j s t →
    t.warnings = s.warnings ∧ t.hostCalls = s.hostCalls ∧ t.fw = s.fw

/-- R120: `AMovD k; DMovAs 0` in ROM, at an address whose low byte is `k` in 0..31, is a self-loop of two steps. The loop is
the spec's own composition (decision D24). -/
def Obligations.TwoByteIdiomSelfLoops : Prop :=
  ∀ (s : State) (k : Chunk), s.config.OpcodesDistinct → s.WellFormed → s.Unarmed → s.n = 0 → k.toNat < 32 →
    s.pc.toNat % 256 = k.toNat →
    s.RomHolds s.pc.toNat [encodeByte s.config (.aMovD k), encodeByte s.config (.dMovAs 0)] →
      ∃ t, Runs 2 s t ∧ t.pc = s.pc ∧ t.D = k.setWidth 16 ∧ Runs 2 t t ∧ t.SelfLoop

/-! ### Counters, views, memory -/

/-- R27: the carrying increment of a byte pair; as one value it counts up modulo 65536. -/
def Obligations.CarryingIncrement : Prop :=
  ∀ (s : State) (i : Nat),
    let t := s.counterUp i
    t.ramByte i = s.ramByte i + 1 ∧
      t.ramByte (i + 1) = (if s.ramByte i = 0xFF then s.ramByte (i + 1) + 1 else s.ramByte (i + 1)) ∧
      t.ramPair i = s.ramPair i + 1 ∧
      (∀ x, x ≠ i → x ≠ i + 1 → t.ramByte x = s.ramByte x) ∧ t = { s with ram := t.ram }

/-- R28: the carrying decrement of a byte pair; as one value it counts down modulo 65536. -/
def Obligations.CarryingDecrement : Prop :=
  ∀ (s : State) (i : Nat),
    let t := s.counterDown i
    t.ramByte i = s.ramByte i - 1 ∧
      t.ramByte (i + 1) = (if s.ramByte i = 0x00 then s.ramByte (i + 1) - 1 else s.ramByte (i + 1)) ∧
      t.ramPair i = s.ramPair i - 1 ∧
      (∀ x, x ≠ i → x ≠ i + 1 → t.ramByte x = s.ramByte x) ∧ t = { s with ram := t.ram }

/-- R32: `Read8` over the whole map, with the two views bit by bit (R21, R22). -/
def Obligations.ReadByteMap : Prop :=
  ∀ (s : State) (a : Nat),
    (0x10000 ≤ a → s.read8 a = (0x00, { s with warnings := s.warnings ++ [.outOfRangeRead a] })) ∧
      (0x8000 ≤ a ∧ a < 0x10000 → s.read8 a = (s.romByte (a - 0x8000), s)) ∧
      (IsIo a → s.read8 a =
        (s.hostAnswers.headD 0xEA,
          { s with
            hostAnswers := s.hostAnswers.tail
            hostCalls := s.hostCalls ++ [.read (BitVec.ofNat 14 (a - 0x4000)) (s.hostAnswers.headD 0xEA)] })) ∧
      (a = 6 → (s.read8 a).2 = s ∧ ∀ j, j < 8 →
        (s.read8 a).1.getLsbD j = !((s.ramByte 4).getLsbD j && (s.ramByte 5).getLsbD j)) ∧
      (a = 7 → (s.read8 a).2 = s ∧ ∀ j, j < 8 →
        (s.read8 a).1.getLsbD j = (s.ramByte 4).getLsbD ((j + s.config.rotN.val) % 8)) ∧
      (a < 0x4000 ∧ a ≠ 6 ∧ a ≠ 7 → s.read8 a = (s.ramByte a, s))

/-- R33 (what 0x6 and 0x7 store is decision D11; the record of host calls is the model's own, notes/assumptions/3.md):
`Write8` over the whole map. -/
def Obligations.WriteByteMap : Prop :=
  ∀ (s : State) (a : Nat) (b : Byte),
    (0x10000 ≤ a → s.write8 a b = { s with warnings := s.warnings ++ [.outOfRangeWrite a] }) ∧
      (0x8000 ≤ a ∧ a < 0x10000 → s.write8 a b = { s with warnings := s.warnings ++ [.romWrite a] }) ∧
      (IsIo a → s.write8 a b =
        { s with hostCalls := s.hostCalls ++ [.write (BitVec.ofNat 14 (a - 0x4000)) b] }) ∧
      (a = 6 → s.write8 a b = s) ∧
      (a = 7 → s.write8 a b = s.flowWrite b) ∧
      (a < 0x4000 ∧ a ≠ 6 ∧ a ≠ 7 →
        (s.write8 a b).ramByte a = b ∧ (∀ x, x ≠ a → (s.write8 a b).ramByte x = s.ramByte x) ∧
          s.write8 a b = { s with ram := (s.write8 a b).ram })

/-- R39: the low byte stands at the lower address in IP, Loop, Indirect and every sixteen-wide store: narrow and wide
reads of plain RAM find it so. -/
def Obligations.LittleEndian : Prop :=
  ∀ (s : State) (a v : Word), 8 ≤ a.toNat → a.toNat + 1 < 0x4000 →
    let t := s.memWrite a true v
    (t.memRead a false).1 = (v.extractLsb' 0 8).setWidth 16 ∧
      (t.memRead (a + 1) false).1 = (v.extractLsb' 8 8).setWidth 16 ∧ (t.memRead a true).1 = v ∧
      s.pc = s.ramByte 1 ++ s.ramByte 0 ∧ s.loop = s.ramByte 3 ++ s.ramByte 2 ∧ s.ind = s.ramByte 5 ++ s.ramByte 4

/-- R74, R75, R76 (set-only is decision D10, the frame-wait bit D3): what a Flow byte does to Loop, Indirect and the
flags, and that it does nothing else. -/
def Obligations.FlowWriteEffects : Prop :=
  ∀ (s : State) (b : Byte),
    let t := s.flowWrite b
    let one (i : Fin 8) : Word := if b.getLsbD i.val then 1 else 0
    t.loop = s.loop - one s.config.fbLoopDown ∧
      t.ind = s.ind + one s.config.fbIndUp - one s.config.fbIndDown ∧
      (t.f16 = true ↔ s.f16 = true ∨ b.getLsbD s.config.fbSixteen.val = true) ∧
      (t.finh = true ↔ s.finh = true ∨ b.getLsbD s.config.fbInhibit.val = true) ∧
      (t.fli = true ↔ s.fli = true ∨ b.getLsbD s.config.fbLoadInd.val = true) ∧
      (t.fsi = true ↔ s.fsi = true ∨ b.getLsbD s.config.fbStoreInd.val = true) ∧
      (t.fw = true ↔ s.fw = true ∨ b.getLsbD s.config.fbFrameWait.val = true) ∧
      (∀ x, x < 2 ∨ 5 < x → t.ramByte x = s.ramByte x) ∧
      t = { s with ram := t.ram, f16 := t.f16, finh := t.finh, fli := t.fli, fsi := t.fsi, fw := t.fw }

/-! ### Instructions -/

/-- R67 (that the field is replaced is decision D5): `PushA` completes and merges its data by push-count parity; nothing
but `A` and the push count changes. -/
def Obligations.PushAMergesByParity : Prop :=
  ∀ (s : State) (data : Chunk), ∃ t, exec (.pushA data) s = .next t ∧ t.n = s.n + 1 ∧
    (s.n % 2 = 0 → t.A.extractLsb' 6 6 = data ∧ t.A.extractLsb' 12 4 = s.A.extractLsb' 12 4) ∧
    (s.n % 2 = 1 → t.A.extractLsb' 12 4 = data.extractLsb' 0 4 ∧ t.A.extractLsb' 6 6 = s.A.extractLsb' 6 6) ∧
    t.A.extractLsb' 0 6 = s.A.extractLsb' 0 6 ∧ t = { s with A := t.A, n := t.n }

/-- R68, R69 (flags untouched is decision D8, `A` left holding the value D6): `AMovD` completes, `D` is the signed 6-bit,
signed 12-bit or merged 16-bit value by push count, and the warning is logged above two pushes. -/
def Obligations.AMovDAssemblesLiteral : Prop :=
  ∀ (s : State) (data : Chunk), ∃ t, exec (.aMovD data) s = .next t ∧
    (s.n = 0 → t.D.toInt = data.toInt) ∧
    (s.n = 1 → t.D.toInt = (s.A.extractLsb' 6 6 ++ data : BitVec 12).toInt) ∧
    (2 ≤ s.n → t.D.extractLsb' 6 10 = s.A.extractLsb' 6 10 ∧ t.D.extractLsb' 0 6 = data) ∧
    t = { s with A := t.D, D := t.D, n := 0, warnings := s.warnings ++ pushWarnings s.n }

/-- R70 (flags D8, zero extension D7, `A` D6): `AsMovD` completes on every address: the effective address is the operand or
Indirect, the one or two bytes are read low first, `fli` and `f16` are cleared, and nothing else changes but what the
reads log. -/
def Obligations.AsMovDLoads : Prop :=
  ∀ (s : State) (data : Chunk),
    let v := finalValue s.A s.n data
    let ea := (s.loadAddress v).toNat
    let u := { s with
      A := v, n := 0, fli := false, f16 := false, warnings := s.warnings ++ pushWarnings s.n }
    let lo := u.read8 ea
    let hi := lo.2.read8 (ea + 1)
    exec (.asMovD data) s =
      if s.f16 then .next { hi.2 with D := hi.1 ++ lo.1 } else .next { lo.2 with D := lo.1.setWidth 16 }

/-- R70, R32 (D6, D7, D8; the range end is D15): an `AsMovD` whose bytes lie outside the I/O region, in terms of the bytes
of the state before it; at 0xFFFF sixteen-wide the high byte is 0x00, with a warning. Memory is unchanged. -/
def Obligations.AsMovDLoadsCoreMemory : Prop :=
  ∀ (s : State) (data : Chunk),
    let v := finalValue s.A s.n data
    let ea := (s.loadAddress v).toNat
    NotIo ea → (s.f16 = true → NotIo (ea + 1)) →
      ∃ t, exec (.asMovD data) s = .next t ∧
        t.D = (if s.f16 then s.peek (ea + 1) ++ s.peek ea else (s.peek ea).setWidth 16) ∧
        t.warnings = s.warnings ++ pushWarnings s.n ++
          (if s.f16 = true ∧ ea = 0xFFFF then [.outOfRangeRead 0x10000] else []) ∧
        t = { s with A := v, n := 0, D := t.D, fli := false, f16 := false, warnings := t.warnings }

/-- R70, R34, R38 (D6, D7, D8): an `AsMovD` of which the low byte, the high byte or both lie in the I/O region takes the
host's next answers, one per byte in the region, low byte first. -/
def Obligations.AsMovDLoadsFromHost : Prop :=
  ∀ (s : State) (data : Chunk),
    let v := finalValue s.A s.n data
    let ea := (s.loadAddress v).toNat
    let r (a : Nat) : BitVec 14 := BitVec.ofNat 14 (a - 0x4000)
    let b₀ := s.hostAnswers.headD 0xEA
    let b₁ := s.hostAnswers.tail.headD 0xEA
    let u := { s with A := v, n := 0, fli := false, f16 := false, warnings := s.warnings ++ pushWarnings s.n }
    (s.f16 = false → IsIo ea → exec (.asMovD data) s = .next
      { u with
        D := b₀.setWidth 16, hostAnswers := s.hostAnswers.tail, hostCalls := s.hostCalls ++ [.read (r ea) b₀] }) ∧
      (s.f16 = true → IsIo ea → IsIo (ea + 1) → exec (.asMovD data) s = .next
        { u with
          D := b₁ ++ b₀, hostAnswers := s.hostAnswers.tail.tail
          hostCalls := s.hostCalls ++ [.read (r ea) b₀, .read (r (ea + 1)) b₁] }) ∧
      (s.f16 = true → ea = 0x3FFF → exec (.asMovD data) s = .next
        { u with
          D := b₀ ++ s.ramByte 0x3FFF, hostAnswers := s.hostAnswers.tail
          hostCalls := s.hostCalls ++ [.read 0 b₀] }) ∧
      (s.f16 = true → ea = 0x7FFF → exec (.asMovD data) s = .next
        { u with
          D := s.romByte 0 ++ b₀, hostAnswers := s.hostAnswers.tail
          hostCalls := s.hostCalls ++ [.read 0x3FFF b₀] })

/-- R71 (D6, D8, D9, D25): `DMovAs` completes on every address: flags are sampled and cleared, then the store is skipped,
or made of one or two byte writes, low first, at the operand's address or Indirect. -/
def Obligations.DMovAsStores : Prop :=
  ∀ (s : State) (data : Chunk),
    let v := finalValue s.A s.n data
    let ea := (s.storeAddress v).toNat
    let u := { s with
      A := v, n := 0, fsi := false, finh := false, f16 := false, warnings := s.warnings ++ pushWarnings s.n }
    exec (.dMovAs data) s =
      if s.finh = true ∧ s.loop = 0 then .next u
      else if s.f16 then .next ((u.write8 ea (s.D.extractLsb' 0 8)).write8 (ea + 1) (s.D.extractLsb' 8 8))
      else .next (u.write8 ea (s.D.extractLsb' 0 8))

/-- R71's frame (D6, D8, D9): whatever a `DMovAs` stores to, `D`, ROM, the parameters and the host's answers stay, `fli` can
only be armed, and every RAM byte stays but the stored ones and, when Flow is written, Loop and Indirect. -/
def Obligations.DMovAsFrame : Prop :=
  ∀ (s : State) (data : Chunk), ∃ t, exec (.dMovAs data) s = .next t ∧
    t.n = 0 ∧ t.D = s.D ∧ t.rom = s.rom ∧ t.config = s.config ∧ t.hostAnswers = s.hostAnswers ∧
    (s.fli = true → t.fli = true) ∧
    (∀ a, a ∉ s.storedAddresses data → (7 ∈ s.storedAddresses data → a < 2 ∨ 5 < a) → t.ramByte a = s.ramByte a) ∧
    (s.storedAddresses data = [] → t.ram = s.ram ∧ t.hostCalls = s.hostCalls)

/-- R71, R38 (D6, D8, D9): a store to plain RAM puts `D[7:0]`, and `D[15:8]` when sixteen-wide, at the effective address,
changes no other byte, and clears the three flags. -/
def Obligations.DMovAsStoresPlainRam : Prop :=
  ∀ (s : State) (data : Chunk),
    let ea := (s.storeAddress (finalValue s.A s.n data)).toNat
    s.storeSkipped = false → 8 ≤ ea → ea < 0x4000 → (s.f16 = true → ea + 1 < 0x4000) →
      ∃ t, exec (.dMovAs data) s = .next t ∧ t.ramByte ea = s.D.extractLsb' 0 8 ∧
        (s.f16 = true → t.ramByte (ea + 1) = s.D.extractLsb' 8 8) ∧
        (∀ a, a ∉ s.storedAddresses data → t.ramByte a = s.ramByte a) ∧
        t = { s with
          A := finalValue s.A s.n data, n := 0, ram := t.ram, f16 := false, fsi := false, finh := false
          warnings := s.warnings ++ pushWarnings s.n }

/-- R71, S5 (the 16-bit test is decision D25, `A` D6): with inhibit-if-zero armed and Loop zero the store is skipped, and
all three flags are cleared all the same. -/
def Obligations.InhibitedStoreOnlyClearsFlags : Prop :=
  ∀ (s : State) (data : Chunk), s.finh = true → s.loop = 0 →
    exec (.dMovAs data) s = .next { s with
      A := finalValue s.A s.n data, n := 0, f16 := false, fsi := false, finh := false
      warnings := s.warnings ++ pushWarnings s.n }

/-- R36, R37, R97 (the range end is D15, `A` D6): a store to ROM changes no byte, logs `RomWrite` for each byte (at 0xFFFF
sixteen-wide `OutOfRangeWrite` for the second) after any `TooManyPushes`, and completes. -/
def Obligations.StoreToRomIsDropped : Prop :=
  ∀ (s : State) (data : Chunk),
    let ea := (s.storeAddress (finalValue s.A s.n data)).toNat
    s.storeSkipped = false → 0x8000 ≤ ea →
      exec (.dMovAs data) s = .next { s with
        A := finalValue s.A s.n data, n := 0, f16 := false, fsi := false, finh := false
        warnings := s.warnings ++ pushWarnings s.n ++ [.romWrite ea] ++
          (if s.f16 = false then [] else if ea = 0xFFFF then [.outOfRangeWrite 0x10000] else [.romWrite (ea + 1)]) }

/-- R34, R38, R43 (`A` D6): a store with bytes in the I/O region hands them to the host, low byte first, each byte obeying
its own region. -/
def Obligations.StoreToHost : Prop :=
  ∀ (s : State) (data : Chunk),
    let v := finalValue s.A s.n data
    let ea := (s.storeAddress v).toNat
    let r (a : Nat) : BitVec 14 := BitVec.ofNat 14 (a - 0x4000)
    let lo := s.D.extractLsb' 0 8
    let hi := s.D.extractLsb' 8 8
    let u := { s with
      A := v, n := 0, f16 := false, fsi := false, finh := false, warnings := s.warnings ++ pushWarnings s.n }
    s.storeSkipped = false →
      (s.f16 = false → IsIo ea → exec (.dMovAs data) s =
        .next { u with hostCalls := s.hostCalls ++ [.write (r ea) lo] }) ∧
      (s.f16 = true → IsIo ea → IsIo (ea + 1) → exec (.dMovAs data) s =
        .next { u with hostCalls := s.hostCalls ++ [.write (r ea) lo, .write (r (ea + 1)) hi] }) ∧
      (s.f16 = true → ea = 0x3FFF → ∃ t, exec (.dMovAs data) s = .next t ∧ t.ramByte 0x3FFF = lo ∧
        (∀ a, a ≠ 0x3FFF → t.ramByte a = s.ramByte a) ∧
        t = { u with ram := t.ram, hostCalls := s.hostCalls ++ [.write 0 hi] }) ∧
      (s.f16 = true → ea = 0x7FFF → exec (.dMovAs data) s =
        .next { u with
          hostCalls := s.hostCalls ++ [.write 0x3FFF lo]
          warnings := s.warnings ++ pushWarnings s.n ++ [.romWrite 0x8000] })

/-- R72: a store to IP transfers control: sixteen-wide at 0x0 to `D`; narrow at 0x0 or 0x1 replaces the low or the high byte
of the advanced IP; other bytes of RAM stay (a sixteen-wide store at 0x1 also writes Loop low). (`A`: D6.) -/
def Obligations.StoreToIpTransfersControl : Prop :=
  ∀ (s : State) (data : Chunk),
    let ea := (s.storeAddress (finalValue s.A s.n data)).toNat
    s.storeSkipped = false → ea < 2 →
      ∃ t, exec (.dMovAs data) s = .next t ∧ t.n = 0 ∧
        (s.f16 = true → ea = 0 → t.pc = s.D) ∧
        (s.f16 = false → ea = 0 → t.pc = s.pc.extractLsb' 8 8 ++ s.D.extractLsb' 0 8) ∧
        (s.f16 = false → ea = 1 → t.pc = s.D.extractLsb' 0 8 ++ s.pc.extractLsb' 0 8) ∧
        (s.f16 = true → ea = 1 → t.pc = s.D.extractLsb' 0 8 ++ s.pc.extractLsb' 0 8 ∧
          t.ramByte 2 = s.D.extractLsb' 8 8) ∧
        (∀ a, a ∉ s.storedAddresses data → t.ramByte a = s.ramByte a) ∧
        t = { s with
          A := finalValue s.A s.n data, n := 0, ram := t.ram, f16 := false, fsi := false, finh := false
          warnings := s.warnings ++ pushWarnings s.n }

/-- R46 (the fetch is decision D14): a byte stored to plain RAM where IP stands is the byte the next step fetches. -/
def Obligations.StoredByteIsFetchedNext : Prop :=
  ∀ (s : State) (data : Chunk),
    let ea := (s.storeAddress (finalValue s.A s.n data)).toNat
    s.storeSkipped = false → s.f16 = false → 8 ≤ ea → ea < 0x4000 → s.pc.toNat = ea →
      ∃ t, exec (.dMovAs data) s = .next t ∧ t.fetch.1 = s.D.extractLsb' 0 8

/-- R74, R78 (D3, D9, D10): the store that writes Flow, narrow or sixteen-wide at 0x7, or sixteen-wide at 0x6. The flags it
arms are those of its byte, left for the next instruction, not those it used up. -/
def Obligations.FlowStoreArmsNextInstruction : Prop :=
  ∀ (s : State) (data : Chunk),
    let ea := (s.storeAddress (finalValue s.A s.n data)).toNat
    let b := if ea = 7 then s.D.extractLsb' 0 8 else s.D.extractLsb' 8 8
    let bit (i : Fin 8) : Bool := b.getLsbD i.val
    let one (i : Fin 8) : Word := if bit i then 1 else 0
    s.storeSkipped = false → (ea = 7 ∨ ea = 6 ∧ s.f16 = true) →
      ∃ t, exec (.dMovAs data) s = .next t ∧
        t.loop = s.loop - one s.config.fbLoopDown ∧
        t.ind = s.ind + one s.config.fbIndUp - one s.config.fbIndDown ∧
        t.f16 = bit s.config.fbSixteen ∧ t.finh = bit s.config.fbInhibit ∧ t.fsi = bit s.config.fbStoreInd ∧
        t.fli = (s.fli || bit s.config.fbLoadInd) ∧ t.fw = (s.fw || bit s.config.fbFrameWait) ∧
        (ea = 7 → s.f16 = true → t.ramByte 8 = s.D.extractLsb' 8 8) ∧
        t.ramByte 0 = s.ramByte 0 ∧ t.ramByte 1 = s.ramByte 1 ∧
        t.hostCalls = s.hostCalls ∧ t.warnings = s.warnings ++ pushWarnings s.n

/-- R73 (decision D8): which instruction uses up which armed flag. A flag an instruction does not qualify for is as it was;
a `DMovAs` that writes Flow is `FlowStoreArmsNextInstruction`. -/
def Obligations.FlagConsumptionTable : Prop :=
  ∀ (s t : State) (data : Chunk),
    (exec (.pushA data) s = .next t ∨ exec (.aMovD data) s = .next t →
      t.f16 = s.f16 ∧ t.fli = s.fli ∧ t.fsi = s.fsi ∧ t.finh = s.finh) ∧
    (exec (.asMovD data) s = .next t → t.f16 = false ∧ t.fli = false ∧ t.fsi = s.fsi ∧ t.finh = s.finh) ∧
    (exec (.dMovAs data) s = .next t → 7 ∉ s.storedAddresses data →
      t.f16 = false ∧ t.fli = s.fli ∧ t.fsi = false ∧ t.finh = false)

/-- R23, R24 (`fw`: decision D3): an instruction that does not write Flow arms no flag and leaves `fw` as it was. -/
def Obligations.OnlyFlowWritesArm : Prop :=
  ∀ (i : Instr) (s t : State), exec i s = .next t → ¬ writesFlow i s →
    (t.f16 = true → s.f16 = true) ∧ (t.fli = true → s.fli = true) ∧ (t.fsi = true → s.fsi = true) ∧
      (t.finh = true → s.finh = true) ∧ t.fw = s.fw

/-- U6 of spec/93_implementation_defined.md: where a data move reads every flag that is armed, the two readings of C12
agree: clearing all four flags after it, what its own Flow write arms apart, changes nothing. -/
def Obligations.DisciplinedMovesClearEveryFlag : Prop :=
  ∀ (s t : State) (data : Chunk),
    (readsEveryArmedFlag (.asMovD data) s → exec (.asMovD data) s = .next t → t.Unarmed) ∧
      (readsEveryArmedFlag (.dMovAs data) s → exec (.dMovAs data) s = .next t →
        ¬ writesFlow (.dMovAs data) s → t.Unarmed)

/-! ### Host -/

/-- R105 (decision D29): a host that honours `fw` stops stepping at the first state with `fw` set, and not before. -/
def Obligations.FrameStopsAtFrameWait : Prop :=
  ∀ (k : Nat) (s : State), ∃ (t : State) (j : Nat), runFrame k s = .next t ∧ j ≤ k ∧ Runs j s t ∧
    (j < k → t.fw = true) ∧ ∀ i u, i < j → Runs i s u → u.fw = false

/-- The model's own placing of an instruction (notes/assumptions/4.md): the byte placed is the byte fetched next. -/
def Obligations.PlacedByteIsFetched : Prop := ∀ (s : State) (b : Byte), (s.placeAtFetch b).fetch.1 = b

/-! ### Assembler -/

/-- R84: a leaf flattens to itself, a sequence to the concatenation of its members; nesting carries no meaning beyond
order, to the assembler neither. -/
def Obligations.NestingCarriesNoMeaning : Prop :=
  (∀ l : Leaf, (Tree.leaf l).flatten = [l]) ∧
    (∀ ts : List Tree, (Tree.seq ts).flatten = (ts.map Tree.flatten).flatten) ∧
    (∀ ts us vs : List Tree, (Tree.seq (ts ++ [Tree.seq us] ++ vs)).flatten = (Tree.seq (ts ++ us ++ vs)).flatten) ∧
    ∀ (cfg : Config) (t u : Tree), t.flatten = u.flatten → assemble cfg t = assemble cfg u

/-- R89, for a program R92 does not refuse: the unresolved-label error arises exactly when a reference names a label that no
leaf defines, and names the first such reference in list order; with no such reference there is an image. -/
def Obligations.UnresolvedLabelIsFirstUndefined : Prop :=
  ∀ (cfg : Config) (tree : Tree), (∀ r, assemble cfg tree ≠ .error (.refused r)) →
    let undefined := (Leaf.references tree.flatten).find? fun name => !(Leaf.labels tree.flatten).contains name
    (∀ name, assemble cfg tree = .error (.unresolvedLabel name) ↔ undefined = some name) ∧
      (undefined = none → ∃ image, assemble cfg tree = .ok image)

/-- R92 (decision D20): a program with two labels of one name is refused, naming a label that stands twice. That this
refusal comes before every other stop is the model's own choice (notes/assumptions/18.md). -/
def Obligations.DuplicateLabelRefused : Prop :=
  ∀ (cfg : Config) (tree : Tree), ¬ (Leaf.labels tree.flatten).Nodup →
    ∃ name, assemble cfg tree = .error (.refused (.duplicateLabel name)) ∧
      2 ≤ (Leaf.labels tree.flatten).count name

/-- R87: the image is 64 KiB: in canonical form, no byte at or above 0x10000. -/
def Obligations.ImageFitsAddressSpace : Prop :=
  ∀ (cfg : Config) (tree : Tree) (image : Memory), assemble cfg tree = .ok image →
    Memory.wf image ∧ ∀ c ∈ image, c.1 < 0x10000

/-- R87 (that a later write stands is decision D30): bytes written from `org` on stand there in order, and no other image
byte changes. -/
def Obligations.EmittedBytesStand : Prop :=
  ∀ (image : Memory) (org : Nat) (bytes : List Byte) (a : Nat),
    Memory.get (emitBytes image org bytes) a =
      if h : org ≤ a ∧ a < org + bytes.length then bytes[a - org] else Memory.get image a

/-- R2, R87, R49: the bytes of a program's last instruction stand in the booted machine's ROM at the origin pass 3 reached,
so that what the assembler emits is what the core fetches (the load is decision D13). -/
def Obligations.LastInstructionReachesRom : Prop :=
  ∀ (cfg : Config) (ls : List Leaf) (op : MoveOp) (x : Operand) (t : LabelTable) (org org' : Nat) (v : Word)
    (image image' : Memory),
    pass3 cfg t ls 0 [] = .ok (org, image) → x.resolve t = .ok v → 0x8000 ≤ org →
    pass3 cfg t (ls ++ [.descriptor op x]) 0 [] = .ok (org', image') →
      (State.resetWith cfg image').RomHolds org (encodeValue cfg op v)

/-- R90, 5.5 of spec/95_test_vectors.md: without forward references, the address of every label is the origin counter pass
3 has where it meets the label. The spec derives it from R86 and R87. -/
def Obligations.BackwardReferencesNeverDrift : Prop :=
  ∀ (cfg : Config) (ls : List Leaf) (org : Nat) (t : LabelTable),
    (Leaf.labels ls).Nodup → Leaf.backwardOnly [] ls → pass2 ls 0 (pass1 cfg.labelSentinel ls []) = .ok (org, t) →
      ∀ (k : Nat) (name : String), ls[k]? = some (.atLabel name) →
        ∃ (a : Word) (image : Memory),
          t.find name = some a ∧ pass3 cfg t (ls.take k) 0 [] = .ok (a.toNat, image)

/-- R90 with the default sentinel 0xEAEA (decision D19): the drift is 3 minus the length of the address, positive exactly
for addresses in [0x0000, 0x07FF] and [0xF800, 0xFFFF], else zero. The ranges are the spec's derivation. -/
def Obligations.DefaultDriftRanges : Prop :=
  ∀ t : Word, drift Config.default t = 3 - (chunkLength t : Int) ∧
    (t.toNat ≤ 0x7FF ∨ 0xF800 ≤ t.toNat → 0 < drift Config.default t) ∧
    (0x800 ≤ t.toNat ∧ t.toNat ≤ 0xF7FF → drift Config.default t = 0)

/-- R86, R87, R90. First at one leaf: where pass 2 meets a reference whose table entry is still `u`, it spaces `len(u)`
bytes; pass 3, with the final address `w`, emits `len(w)`. Then over a whole program, which the spec derives: on arrival at
every leaf, the origin of pass 2, which a label there takes as its address, lies above that of pass 3 by the drifts of the
forward references since the last `AtOrigin`. With a three-chunk sentinel pass 3 always gets there. -/
def Obligations.ReferenceSpacedThenEmitted : Prop :=
  (∀ (cfg : Config) (op : MoveOp) (name : String) (t t' : LabelTable) (u w : Word) (org : Nat) (image : Memory),
    t.find name = some u → t'.find name = some w → org + chunkLength u ≤ 0x10000 → org + chunkLength w ≤ 0x10000 →
      spaceLeaf org t (.descriptor op (.labelRef name)) = .ok (org + chunkLength u, t) ∧
        emitLeaf cfg t' org image (.descriptor op (.labelRef name)) =
          .ok (org + chunkLength w, emitBytes image org (encodeValue cfg op w))) ∧
    ∀ (cfg : Config) (ls : List Leaf) (org : Nat) (t : LabelTable),
      (Leaf.labels ls).Nodup → pass2 ls 0 (pass1 cfg.labelSentinel ls []) = .ok (org, t) →
        ∀ k : Nat, ∃ (o : Nat) (u : LabelTable),
          pass2 (ls.take k) 0 (pass1 cfg.labelSentinel ls []) = .ok (o, u) ∧
            (∀ name, ls[k]? = some (.atLabel name) → (t.find name).map (·.toNat) = some o) ∧
            (∀ e image, pass3 cfg t (ls.take k) 0 [] = .ok (e, image) →
              (o : Int) = e + Leaf.driftOver cfg t [] 0 (ls.take k)) ∧
            (chunkLength cfg.labelSentinel = 3 → ∃ e image, pass3 cfg t (ls.take k) 0 [] = .ok (e, image))
end

