-- ==== Sys2Proof/Laws/Assembler.lean ====
section
/-! SUPPORT. What the assembler's parts can do: the label table, the two origin counters leaf by leaf, and the passes over
a leaf and the rest. -/

namespace Sys2Proof

/-- A table reads what was put under a name, and under every other name what it read before. -/
theorem LabelTable.find_put (t : LabelTable) (name x : String) (v : Word) :
    (t.put name v).find x = if name = x then some v else t.find x := by
  induction t with
  | nil => rfl
  | cons e t ih =>
    by_cases h : e.1 = name
    · subst h; by_cases hx : e.1 = x <;> simp [LabelTable.put, LabelTable.find, hx]
    · by_cases hx : name = x
      · subst hx; simp [LabelTable.put, LabelTable.find, h, ih]
      · simp [LabelTable.put, LabelTable.find, h, ih, hx]

/-- What `advance` answers, when it does. -/
theorem advance_eq_ok {org len o : Nat} : advance org len = .ok o ↔ o = org + len ∧ (len = 0 ∨ org + len ≤ 0x10000) := by
  unfold advance
  split <;> simp_all [eq_comm]

/-- What `setOrigin` answers, when it does. -/
theorem setOrigin_eq_ok {a : Int} {o : Nat} : setOrigin a = .ok o ↔ o = a.toNat ∧ 0 ≤ a ∧ a ≤ 0xFFFF := by
  unfold setOrigin
  split <;> simp_all [eq_comm]

/-- An instruction that resolves spells as many bytes as its value has chunks. -/
theorem length_buildRawInstructions (cfg : Config) (opcode : BitVec 2) :
    ∀ c : List Chunk, (buildRawInstructions cfg opcode c).length = c.length
  | [] => rfl
  | [_] => rfl
  | _ :: c' :: r => by simp [buildRawInstructions, length_buildRawInstructions cfg opcode (c' :: r)]

@[simp] theorem length_encodeValue (cfg : Config) (op : MoveOp) (v : Word) :
    (encodeValue cfg op v).length = chunkLength v := length_buildRawInstructions _ _ _

@[simp] theorem pass2_nil (org : Nat) (t : LabelTable) : pass2 [] org t = .ok (org, t) := rfl

/-- Pass 2 over a list is what it does at the first leaf, then at the rest. -/
theorem pass2_cons_eq_ok {l : Leaf} {ls : List Leaf} {org : Nat} {t : LabelTable} {r : Nat × LabelTable} :
    pass2 (l :: ls) org t = .ok r ↔ ∃ o u, spaceLeaf org t l = .ok (o, u) ∧ pass2 ls o u = .ok r := by
  simp only [pass2]
  cases spaceLeaf org t l with
  | error e => simp [bind, Except.bind]
  | ok p => obtain ⟨o, u⟩ := p; simp [bind, Except.bind]

@[simp] theorem pass3_nil (cfg : Config) (t : LabelTable) (org : Nat) (image : Memory) :
    pass3 cfg t [] org image = .ok (org, image) := rfl

/-- Pass 3 over a list is what it does at the first leaf, then at the rest. -/
theorem pass3_cons_eq_ok {cfg : Config} {t : LabelTable} {l : Leaf} {ls : List Leaf} {org : Nat} {image : Memory}
    {r : Nat × Memory} :
    pass3 cfg t (l :: ls) org image = .ok r ↔
      ∃ o im, emitLeaf cfg t org image l = .ok (o, im) ∧ pass3 cfg t ls o im = .ok r := by
  simp only [pass3]
  cases emitLeaf cfg t org image l with
  | error e => simp [bind, Except.bind]
  | ok p => obtain ⟨o, im⟩ := p; simp [bind, Except.bind]

/-- What pass 2 does at a leaf, when it goes on. -/
theorem spaceLeaf_eq_ok {org o : Nat} {t u : LabelTable} {l : Leaf} :
    spaceLeaf org t l = .ok (o, u) ↔
      match l with
      | .atOrigin a => setOrigin a = .ok o ∧ u = t
      | .rawData bytes => advance org bytes.length = .ok o ∧ u = t
      | .atLabel name => org ≤ 0xFFFF ∧ o = org ∧ u = t.put name (BitVec.ofNat 16 org)
      | .descriptor _ x => ∃ v, x.resolve t = .ok v ∧ advance org (chunkLength v) = .ok o ∧ u = t := by
  cases l with
  | atOrigin a => cases h : setOrigin a <;> simp [spaceLeaf, h, bind, Except.bind, pure, Except.pure, eq_comm]
  | rawData bytes =>
    cases h : advance org bytes.length <;> simp [spaceLeaf, h, bind, Except.bind, pure, Except.pure, eq_comm]
  | atLabel name => by_cases h : org ≤ 0xFFFF <;> simp [spaceLeaf, h, eq_comm]
  | descriptor op x =>
    cases hv : x.resolve t with
    | error e => simp [spaceLeaf, hv, bind, Except.bind]
    | ok v =>
      cases h : advance org (chunkLength v) <;>
        simp [spaceLeaf, hv, h, bind, Except.bind, pure, Except.pure, eq_comm]

/-- What pass 3 does at a leaf, when it goes on. -/
theorem emitLeaf_eq_ok {cfg : Config} {t : LabelTable} {org o : Nat} {image im : Memory} {l : Leaf} :
    emitLeaf cfg t org image l = .ok (o, im) ↔
      match l with
      | .atOrigin a => setOrigin a = .ok o ∧ im = image
      | .rawData bytes => advance org bytes.length = .ok o ∧ im = emitBytes image org bytes
      | .atLabel _ => o = org ∧ im = image
      | .descriptor op x =>
        ∃ v, x.resolve t = .ok v ∧ advance org (chunkLength v) = .ok o ∧
          im = emitBytes image org (encodeValue cfg op v) := by
  cases l with
  | atOrigin a => cases h : setOrigin a <;> simp [emitLeaf, h, bind, Except.bind, pure, Except.pure, eq_comm]
  | rawData bytes =>
    cases h : advance org bytes.length <;> simp [emitLeaf, emitAt, h, bind, Except.bind, pure, Except.pure, eq_comm]
  | atLabel name => simp [emitLeaf, eq_comm]
  | descriptor op x =>
    cases hv : x.resolve t with
    | error e => simp [emitLeaf, hv, bind, Except.bind]
    | ok v =>
      cases h : advance org (chunkLength v) <;>
        simp [emitLeaf, emitAt, hv, h, bind, Except.bind, pure, Except.pure, eq_comm]

/-- An operand resolves to a value exactly when it is a literal or its label is in the table. -/
theorem resolve_eq_ok {t : LabelTable} {x : Operand} {v : Word} :
    x.resolve t = .ok v ↔
      match x with
      | .lit n => v = BitVec.ofInt 16 n
      | .labelRef name => t.find name = some v := by
  cases x with
  | lit n => simp [Operand.resolve, eq_comm]
  | labelRef name => cases h : t.find name <;> simp [Operand.resolve, h]

end Sys2Proof
end

