-- ==== Sys2Proof/Laws/Bits.lean ====
section
/-! SUPPORT. Facts about concatenation and slices of bit vectors, in numbers. -/

namespace Sys2Proof

theorem toNat_append {v w : Nat} (x : BitVec v) (y : BitVec w) : (x ++ y).toNat = x.toNat * 2 ^ w + y.toNat := by
  rw [BitVec.toNat_append, Nat.shiftLeft_eq, Nat.mul_comm, Nat.two_pow_add_eq_or_of_lt y.isLt]

theorem extract_append_low {v w : Nat} (x : BitVec v) (y : BitVec w) : (x ++ y).extractLsb' 0 w = y := by
  apply BitVec.eq_of_toNat_eq
  rw [BitVec.extractLsb'_toNat, toNat_append, Nat.shiftRight_zero, Nat.mul_add_mod_of_lt y.isLt]

theorem extract_append_high {v w : Nat} (x : BitVec v) (y : BitVec w) : (x ++ y).extractLsb' w v = x := by
  apply BitVec.eq_of_toNat_eq
  rw [BitVec.extractLsb'_toNat, toNat_append, Nat.shiftRight_eq_div_pow, Nat.mul_comm,
    Nat.mul_add_div (Nat.two_pow_pos w), Nat.div_eq_of_lt y.isLt, Nat.add_zero, Nat.mod_eq_of_lt x.isLt]

/-- A slice of a concatenation that lies in the lower part. -/
theorem extract_append_of_le {v w k m : Nat} (x : BitVec v) (y : BitVec w) (h : k + m ≤ w) :
    (x ++ y).extractLsb' k m = y.extractLsb' k m := by
  apply BitVec.eq_of_getLsbD_eq
  intro i hi
  have : k + i < w := by omega
  simp [BitVec.getLsbD_extractLsb', BitVec.getLsbD_append, this]

/-- A slice of a concatenation that lies in the upper part. -/
theorem extract_append_of_ge {v w m : Nat} (k : Nat) (x : BitVec v) (y : BitVec w) :
    (x ++ y).extractLsb' (w + k) m = x.extractLsb' k m := by
  apply BitVec.eq_of_getLsbD_eq
  intro i hi
  simp [BitVec.getLsbD_extractLsb', BitVec.getLsbD_append, Nat.add_assoc]

/-- A slice of a slice. -/
theorem extract_extract {v a n b m : Nat} (x : BitVec v) (h : b + m ≤ n) :
    (x.extractLsb' a n).extractLsb' b m = x.extractLsb' (a + b) m := by
  apply BitVec.eq_of_getLsbD_eq
  intro i hi
  have : b + i < n := by omega
  simp [this, hi, Nat.add_assoc]

/-- A word is its high byte followed by its low byte. -/
theorem word_split (x : Word) : x.extractLsb' 8 8 ++ x.extractLsb' 0 8 = x := by
  apply BitVec.eq_of_toNat_eq
  have := x.isLt
  rw [toNat_append, BitVec.extractLsb'_toNat, BitVec.extractLsb'_toNat, Nat.shiftRight_eq_div_pow]
  omega

end Sys2Proof
end

