-- ==== Sys2Proof/Laws/Memory.lean ====
section
/-! SUPPORT. What a byte memory reads after a write, that every memory operation keeps the canonical form, and that
canonical memories that read alike are equal. -/

namespace Sys2Proof

theorem Memory.get_cons (c : Host.Cell) (m : Memory) (a : Nat) :
    Memory.get (c :: m) a = if c.1 = a then c.2 else Memory.get m a := rfl

theorem Memory.get_of_not_mem {m : Memory} {a : Nat} (h : ∀ c ∈ m, c.1 ≠ a) : Memory.get m a = 0 := by
  induction m with
  | nil => rfl
  | cons c m ih => simp [Memory.get_cons, h c (by simp), ih fun c' hc' => h c' (by simp [hc'])]

theorem Memory.mem_erase {m : Memory} {a : Nat} {c : Host.Cell} : c ∈ Memory.erase m a ↔ c ∈ m ∧ c.1 ≠ a := by
  simp [Memory.erase]

theorem Memory.get_erase_same (m : Memory) (a : Nat) : Memory.get (Memory.erase m a) a = 0 :=
  Memory.get_of_not_mem fun _ hc => (Memory.mem_erase.mp hc).2

theorem Memory.get_erase_of_ne (m : Memory) {a x : Nat} (h : x ≠ a) :
    Memory.get (Memory.erase m a) x = Memory.get m x := by
  induction m with
  | nil => rfl
  | cons c m ih =>
    rw [Memory.erase, List.filter_cons]
    by_cases hc : c.1 = a
    · have hx : c.1 ≠ x := fun hx => h (hx.symm.trans hc)
      simpa [hc, Memory.get_cons, hx, Ne.symm h, Memory.erase] using ih
    · simp only [bne_iff_ne, ne_eq, hc, not_false_eq_true, if_true, Memory.get_cons]
      rw [← ih, Memory.erase]

theorem Memory.get_insertCell (m : Memory) (a : Nat) (b : Byte) (h : ∀ c ∈ m, c.1 ≠ a) (x : Nat) :
    Memory.get (Memory.insertCell a b m) x = if a = x then b else Memory.get m x := by
  induction m with
  | nil => rfl
  | cons c m ih =>
    have ih' := ih fun c' hc' => h c' (by simp [hc'])
    have hca : c.1 ≠ a := h c (by simp)
    by_cases hlt : a < c.1
    · simp [Memory.insertCell, hlt, Memory.get_cons]
    · by_cases hx : a = x
      · subst hx
        simp [Memory.insertCell, hlt, Memory.get_cons, ih', hca]
      · simp [Memory.insertCell, hlt, Memory.get_cons, ih', hx]

/-- Everything a read finds after a write. -/
theorem Memory.get_set (m : Memory) (a : Nat) (b : Byte) (x : Nat) :
    Memory.get (Memory.set m a b) x = if a = x then b else Memory.get m x := by
  have hne : ∀ c ∈ Memory.erase m a, c.1 ≠ a := fun _ hc => (Memory.mem_erase.mp hc).2
  by_cases hx : a = x
  · subst hx
    by_cases hb : b = Memory.unlisted
    · simp [Memory.set, hb, Memory.get_erase_same, Memory.unlisted]
    · simp [Memory.set, hb, Memory.get_insertCell _ _ _ hne]
  · by_cases hb : b = Memory.unlisted
    · simp [Memory.set, hb, Memory.get_erase_of_ne m (Ne.symm hx), hx]
    · simp [Memory.set, hb, Memory.get_insertCell _ _ _ hne, Memory.get_erase_of_ne m (Ne.symm hx), hx]

@[simp] theorem Memory.get_set_same (m : Memory) (a : Nat) (b : Byte) : Memory.get (Memory.set m a b) a = b := by
  simp [Memory.get_set]

theorem Memory.get_set_of_ne (m : Memory) {a x : Nat} (b : Byte) (h : a ≠ x) :
    Memory.get (Memory.set m a b) x = Memory.get m x := by simp [Memory.get_set, h]

theorem Memory.mem_insertCell {a : Nat} {b : Byte} {m : Memory} {c : Host.Cell} :
    c ∈ Memory.insertCell a b m ↔ c = (a, b) ∨ c ∈ m := by
  induction m with
  | nil => simp [Memory.insertCell]
  | cons d m ih =>
    by_cases h : a < d.1
    · simp [Memory.insertCell, h]
    · simp [Memory.insertCell, h, ih]; tauto

/-- A cell of a memory after a write is one of the memory before, or the one written. -/
theorem Memory.mem_set {m : Memory} {a : Nat} {b : Byte} {c : Host.Cell} (h : c ∈ Memory.set m a b) :
    c ∈ m ∨ c = (a, b) := by
  by_cases hb : b = Memory.unlisted
  · simp only [Memory.set, hb, if_true, Memory.mem_erase] at h
    exact .inl h.1
  · simp only [Memory.set, hb, if_false, Memory.mem_insertCell, Memory.mem_erase] at h
    exact h.symm.imp (·.1) id

theorem Memory.wf_nil : Memory.wf [] := by simp [Memory.wf]

theorem Memory.wf_filter {m : Memory} (h : Memory.wf m) (p : Host.Cell → Bool) : Memory.wf (m.filter p) :=
  ⟨h.1.filter p, fun c hc => h.2 c (List.mem_filter.mp hc).1⟩

theorem Memory.wf_erase {m : Memory} (h : Memory.wf m) (a : Nat) : Memory.wf (Memory.erase m a) := Memory.wf_filter h _

theorem Memory.wf_insertCell {m : Memory} (h : Memory.wf m) {a : Nat} {b : Byte} (ha : ∀ c ∈ m, c.1 ≠ a)
    (hb : b ≠ Memory.unlisted) : Memory.wf (Memory.insertCell a b m) := by
  refine ⟨?_, fun c hc => ?_⟩
  · have hp := h.1
    clear h
    induction m with
    | nil => simp [Memory.insertCell]
    | cons d m ih =>
      rw [List.pairwise_cons] at hp
      have hda : d.1 ≠ a := ha d (by simp)
      by_cases hlt : a < d.1
      · simp only [Memory.insertCell, hlt, if_true, List.pairwise_cons, List.mem_cons]
        refine ⟨?_, hp⟩
        rintro c (rfl | hc)
        · exact hlt
        · exact hlt.trans (hp.1 c hc)
      · simp only [Memory.insertCell, hlt, if_false, List.pairwise_cons]
        refine ⟨fun c hc => ?_, ih (fun c hc => ha c (by simp [hc])) hp.2⟩
        rcases Memory.mem_insertCell.mp hc with rfl | hc
        · show d.1 < a
          omega
        · exact hp.1 c hc
  · rcases Memory.mem_insertCell.mp hc with rfl | hc
    · exact hb
    · exact h.2 c hc

/-- A write keeps the canonical form. -/
theorem Memory.wf_set {m : Memory} (h : Memory.wf m) (a : Nat) (b : Byte) : Memory.wf (Memory.set m a b) := by
  by_cases hb : b = Memory.unlisted
  · simpa [Memory.set, hb] using Memory.wf_erase h a
  · simpa [Memory.set, hb] using
      Memory.wf_insertCell (Memory.wf_erase h a) (fun c hc => (Memory.mem_erase.mp hc).2) hb

theorem Memory.wf_resetRam (ip : Word) : Memory.wf (Memory.resetRam ip) :=
  Memory.wf_set (Memory.wf_set Memory.wf_nil _ _) _ _

theorem Memory.mem_romOfImage {image : Memory} {c : Host.Cell} :
    c ∈ Memory.romOfImage image ↔ c.1 < 0x8000 ∧ (c.1 + 0x8000, c.2) ∈ image := by
  obtain ⟨k, v⟩ := c
  simp only [Memory.romOfImage, List.mem_map, List.mem_filter, decide_eq_true_eq, Prod.mk.injEq, Prod.exists]
  constructor
  · rintro ⟨a, b, ⟨hm, h1, h2⟩, rfl, rfl⟩
    have ha : a - 32768 + 32768 = a := by omega
    exact ⟨by omega, by simpa [ha] using hm⟩
  · rintro ⟨hk, hm⟩
    exact ⟨k + 0x8000, v, ⟨hm, by omega, by omega⟩, by omega, rfl⟩

/-- The ROM load keeps the canonical form. -/
theorem Memory.wf_romOfImage {image : Memory} (h : Memory.wf image) : Memory.wf (Memory.romOfImage image) := by
  refine ⟨?_, fun c hc => h.2 (c.1 + 0x8000, c.2) (Memory.mem_romOfImage.mp hc).2⟩
  rw [Memory.romOfImage, List.pairwise_map]
  refine List.Pairwise.imp_of_mem (fun {c d} hc hd hlt => ?_) (h.1.filter _)
  have := (List.mem_filter.mp hc).2
  have := (List.mem_filter.mp hd).2
  simp only [decide_eq_true_eq] at *
  omega

/-- Canonical memories that read alike are equal. -/
theorem Memory.ext_of_wf {m m' : Memory} (h : Memory.wf m) (h' : Memory.wf m')
    (hget : ∀ a, Memory.get m a = Memory.get m' a) : m = m' := by
  have head_eq : ∀ {c : Host.Cell} {m m' : Memory}, Memory.wf (c :: m) → Memory.wf m' →
      (∀ a, Memory.get (c :: m) a = Memory.get m' a) → ∃ m'', m' = c :: m'' ∨ ∃ d, m' = d :: m'' ∧ d.1 < c.1 := by
    intro c m m' hw hw' hg
    have hc : Memory.get m' c.1 = c.2 := by rw [← hg]; simp [Memory.get_cons]
    have hc0 : c.2 ≠ 0 := hw.2 c (by simp)
    cases m' with
    | nil => exact absurd (hc.symm.trans rfl) hc0
    | cons d m' =>
      rcases lt_trichotomy d.1 c.1 with hlt | heq | hgt
      · exact ⟨m', .inr ⟨d, rfl, hlt⟩⟩
      · have hd : d.2 = c.2 := by simpa [Memory.get_cons, heq] using hc
        exact ⟨m', .inl (by rw [Prod.ext heq hd])⟩
      · have : Memory.get (d :: m') c.1 = 0 := by
          refine Memory.get_of_not_mem fun e he => ?_
          rcases List.mem_cons.mp he with rfl | he
          · omega
          · have := (List.pairwise_cons.mp hw'.1).1 e he
            omega
        exact absurd (hc.symm.trans this) hc0
  induction m generalizing m' with
  | nil =>
    cases m' with
    | nil => rfl
    | cons d m' =>
      have := hget d.1
      simp only [Memory.get, if_true] at this
      exact absurd this.symm (h'.2 d (by simp))
  | cons c m ih =>
    obtain ⟨m'', rfl | ⟨d, rfl, hlt⟩⟩ := head_eq h h' hget
    · congr 1
      have tail_wf : ∀ {m : Memory}, Memory.wf (c :: m) → Memory.wf m := fun hw =>
        ⟨(List.pairwise_cons.mp hw.1).2, fun d hd => hw.2 d (by simp [hd])⟩
      have tail_get : ∀ {m : Memory}, Memory.wf (c :: m) → Memory.get m c.1 = 0 := fun hw =>
        Memory.get_of_not_mem fun d hd => by
          have := (List.pairwise_cons.mp hw.1).1 d hd
          omega
      refine ih (tail_wf h) (tail_wf h') fun a => ?_
      by_cases ha : c.1 = a
      · rw [← ha, tail_get h, tail_get h']
      · simpa [Memory.get_cons, ha] using hget a
    · obtain ⟨m3, hm | ⟨e, hm, he⟩⟩ := head_eq h' h fun a => (hget a).symm
      · have := (List.cons.inj hm).1
        subst this
        omega
      · have := (List.cons.inj hm).1
        subst this
        omega

end Sys2Proof
end

