-- ==== Sys2Proof/Laws/State.lean ====
section
/-! SUPPORT. One lemma per field per named update of State, true by unfolding, so that no later proof unfolds one. -/

namespace Sys2Proof.Machine

@[simp] theorem State.setRam_A (s : State) (i : Nat) (b : Byte) : (s.setRam i b).A = s.A := rfl
@[simp] theorem State.setRam_n (s : State) (i : Nat) (b : Byte) : (s.setRam i b).n = s.n := rfl
@[simp] theorem State.setRam_D (s : State) (i : Nat) (b : Byte) : (s.setRam i b).D = s.D := rfl
@[simp] theorem State.setRam_ram (s : State) (i : Nat) (b : Byte) : (s.setRam i b).ram = Memory.set s.ram i b := rfl
@[simp] theorem State.setRam_rom (s : State) (i : Nat) (b : Byte) : (s.setRam i b).rom = s.rom := rfl
@[simp] theorem State.setRam_f16 (s : State) (i : Nat) (b : Byte) : (s.setRam i b).f16 = s.f16 := rfl
@[simp] theorem State.setRam_fli (s : State) (i : Nat) (b : Byte) : (s.setRam i b).fli = s.fli := rfl
@[simp] theorem State.setRam_fsi (s : State) (i : Nat) (b : Byte) : (s.setRam i b).fsi = s.fsi := rfl
@[simp] theorem State.setRam_finh (s : State) (i : Nat) (b : Byte) : (s.setRam i b).finh = s.finh := rfl
@[simp] theorem State.setRam_fw (s : State) (i : Nat) (b : Byte) : (s.setRam i b).fw = s.fw := rfl
@[simp] theorem State.setRam_warnings (s : State) (i : Nat) (b : Byte) : (s.setRam i b).warnings = s.warnings := rfl
@[simp] theorem State.setRam_config (s : State) (i : Nat) (b : Byte) : (s.setRam i b).config = s.config := rfl
@[simp] theorem State.setRam_hostAnswers (s : State) (i : Nat) (b : Byte) : (s.setRam i b).hostAnswers = s.hostAnswers := rfl
@[simp] theorem State.setRam_hostCalls (s : State) (i : Nat) (b : Byte) : (s.setRam i b).hostCalls = s.hostCalls := rfl

@[simp] theorem State.setPc_A (s : State) (t : Word) : (s.setPc t).A = s.A := rfl
@[simp] theorem State.setPc_n (s : State) (t : Word) : (s.setPc t).n = s.n := rfl
@[simp] theorem State.setPc_D (s : State) (t : Word) : (s.setPc t).D = s.D := rfl
@[simp] theorem State.setPc_rom (s : State) (t : Word) : (s.setPc t).rom = s.rom := rfl
@[simp] theorem State.setPc_f16 (s : State) (t : Word) : (s.setPc t).f16 = s.f16 := rfl
@[simp] theorem State.setPc_fli (s : State) (t : Word) : (s.setPc t).fli = s.fli := rfl
@[simp] theorem State.setPc_fsi (s : State) (t : Word) : (s.setPc t).fsi = s.fsi := rfl
@[simp] theorem State.setPc_finh (s : State) (t : Word) : (s.setPc t).finh = s.finh := rfl
@[simp] theorem State.setPc_fw (s : State) (t : Word) : (s.setPc t).fw = s.fw := rfl
@[simp] theorem State.setPc_warnings (s : State) (t : Word) : (s.setPc t).warnings = s.warnings := rfl
@[simp] theorem State.setPc_config (s : State) (t : Word) : (s.setPc t).config = s.config := rfl
@[simp] theorem State.setPc_hostAnswers (s : State) (t : Word) : (s.setPc t).hostAnswers = s.hostAnswers := rfl
@[simp] theorem State.setPc_hostCalls (s : State) (t : Word) : (s.setPc t).hostCalls = s.hostCalls := rfl

@[simp] theorem State.warn_A (s : State) (w : Warning) : (s.warn w).A = s.A := rfl
@[simp] theorem State.warn_n (s : State) (w : Warning) : (s.warn w).n = s.n := rfl
@[simp] theorem State.warn_D (s : State) (w : Warning) : (s.warn w).D = s.D := rfl
@[simp] theorem State.warn_ram (s : State) (w : Warning) : (s.warn w).ram = s.ram := rfl
@[simp] theorem State.warn_rom (s : State) (w : Warning) : (s.warn w).rom = s.rom := rfl
@[simp] theorem State.warn_f16 (s : State) (w : Warning) : (s.warn w).f16 = s.f16 := rfl
@[simp] theorem State.warn_fli (s : State) (w : Warning) : (s.warn w).fli = s.fli := rfl
@[simp] theorem State.warn_fsi (s : State) (w : Warning) : (s.warn w).fsi = s.fsi := rfl
@[simp] theorem State.warn_finh (s : State) (w : Warning) : (s.warn w).finh = s.finh := rfl
@[simp] theorem State.warn_fw (s : State) (w : Warning) : (s.warn w).fw = s.fw := rfl
@[simp] theorem State.warn_warnings (s : State) (w : Warning) : (s.warn w).warnings = s.warnings ++ [w] := rfl
@[simp] theorem State.warn_config (s : State) (w : Warning) : (s.warn w).config = s.config := rfl
@[simp] theorem State.warn_hostAnswers (s : State) (w : Warning) : (s.warn w).hostAnswers = s.hostAnswers := rfl
@[simp] theorem State.warn_hostCalls (s : State) (w : Warning) : (s.warn w).hostCalls = s.hostCalls := rfl

@[simp] theorem State.hostWrite_A (s : State) (r : BitVec 14) (b : Byte) : (s.hostWrite r b).A = s.A := rfl
@[simp] theorem State.hostWrite_n (s : State) (r : BitVec 14) (b : Byte) : (s.hostWrite r b).n = s.n := rfl
@[simp] theorem State.hostWrite_D (s : State) (r : BitVec 14) (b : Byte) : (s.hostWrite r b).D = s.D := rfl
@[simp] theorem State.hostWrite_ram (s : State) (r : BitVec 14) (b : Byte) : (s.hostWrite r b).ram = s.ram := rfl
@[simp] theorem State.hostWrite_rom (s : State) (r : BitVec 14) (b : Byte) : (s.hostWrite r b).rom = s.rom := rfl
@[simp] theorem State.hostWrite_f16 (s : State) (r : BitVec 14) (b : Byte) : (s.hostWrite r b).f16 = s.f16 := rfl
@[simp] theorem State.hostWrite_fli (s : State) (r : BitVec 14) (b : Byte) : (s.hostWrite r b).fli = s.fli := rfl
@[simp] theorem State.hostWrite_fsi (s : State) (r : BitVec 14) (b : Byte) : (s.hostWrite r b).fsi = s.fsi := rfl
@[simp] theorem State.hostWrite_finh (s : State) (r : BitVec 14) (b : Byte) : (s.hostWrite r b).finh = s.finh := rfl
@[simp] theorem State.hostWrite_fw (s : State) (r : BitVec 14) (b : Byte) : (s.hostWrite r b).fw = s.fw := rfl
@[simp] theorem State.hostWrite_warnings (s : State) (r : BitVec 14) (b : Byte) : (s.hostWrite r b).warnings = s.warnings := rfl
@[simp] theorem State.hostWrite_config (s : State) (r : BitVec 14) (b : Byte) : (s.hostWrite r b).config = s.config := rfl
@[simp] theorem State.hostWrite_hostAnswers (s : State) (r : BitVec 14) (b : Byte) : (s.hostWrite r b).hostAnswers = s.hostAnswers := rfl
@[simp] theorem State.hostWrite_hostCalls (s : State) (r : BitVec 14) (b : Byte) : (s.hostWrite r b).hostCalls = s.hostCalls ++ [.write r b] := rfl

@[simp] theorem State.hostRead_A (s : State) (r : BitVec 14) : (s.hostRead r).2.A = s.A := rfl
@[simp] theorem State.hostRead_n (s : State) (r : BitVec 14) : (s.hostRead r).2.n = s.n := rfl
@[simp] theorem State.hostRead_D (s : State) (r : BitVec 14) : (s.hostRead r).2.D = s.D := rfl
@[simp] theorem State.hostRead_ram (s : State) (r : BitVec 14) : (s.hostRead r).2.ram = s.ram := rfl
@[simp] theorem State.hostRead_rom (s : State) (r : BitVec 14) : (s.hostRead r).2.rom = s.rom := rfl
@[simp] theorem State.hostRead_f16 (s : State) (r : BitVec 14) : (s.hostRead r).2.f16 = s.f16 := rfl
@[simp] theorem State.hostRead_fli (s : State) (r : BitVec 14) : (s.hostRead r).2.fli = s.fli := rfl
@[simp] theorem State.hostRead_fsi (s : State) (r : BitVec 14) : (s.hostRead r).2.fsi = s.fsi := rfl
@[simp] theorem State.hostRead_finh (s : State) (r : BitVec 14) : (s.hostRead r).2.finh = s.finh := rfl
@[simp] theorem State.hostRead_fw (s : State) (r : BitVec 14) : (s.hostRead r).2.fw = s.fw := rfl
@[simp] theorem State.hostRead_warnings (s : State) (r : BitVec 14) : (s.hostRead r).2.warnings = s.warnings := rfl
@[simp] theorem State.hostRead_config (s : State) (r : BitVec 14) : (s.hostRead r).2.config = s.config := rfl
@[simp] theorem State.hostRead_hostAnswers (s : State) (r : BitVec 14) : (s.hostRead r).2.hostAnswers = s.hostAnswers.tail := rfl
@[simp] theorem State.hostRead_hostCalls (s : State) (r : BitVec 14) : (s.hostRead r).2.hostCalls = s.hostCalls ++ [.read r (s.hostAnswers.headD noHandlerByte)] := rfl

@[simp] theorem State.armFrom_A (s : State) (b : Byte) : (s.armFrom b).A = s.A := rfl
@[simp] theorem State.armFrom_n (s : State) (b : Byte) : (s.armFrom b).n = s.n := rfl
@[simp] theorem State.armFrom_D (s : State) (b : Byte) : (s.armFrom b).D = s.D := rfl
@[simp] theorem State.armFrom_ram (s : State) (b : Byte) : (s.armFrom b).ram = s.ram := rfl
@[simp] theorem State.armFrom_rom (s : State) (b : Byte) : (s.armFrom b).rom = s.rom := rfl
@[simp] theorem State.armFrom_f16 (s : State) (b : Byte) : (s.armFrom b).f16 = (s.f16 || flowBit b s.config.fbSixteen) := rfl
@[simp] theorem State.armFrom_fli (s : State) (b : Byte) : (s.armFrom b).fli = (s.fli || flowBit b s.config.fbLoadInd) := rfl
@[simp] theorem State.armFrom_fsi (s : State) (b : Byte) : (s.armFrom b).fsi = (s.fsi || flowBit b s.config.fbStoreInd) := rfl
@[simp] theorem State.armFrom_finh (s : State) (b : Byte) : (s.armFrom b).finh = (s.finh || flowBit b s.config.fbInhibit) := rfl
@[simp] theorem State.armFrom_fw (s : State) (b : Byte) : (s.armFrom b).fw = (s.fw || flowBit b s.config.fbFrameWait) := rfl
@[simp] theorem State.armFrom_warnings (s : State) (b : Byte) : (s.armFrom b).warnings = s.warnings := rfl
@[simp] theorem State.armFrom_config (s : State) (b : Byte) : (s.armFrom b).config = s.config := rfl
@[simp] theorem State.armFrom_hostAnswers (s : State) (b : Byte) : (s.armFrom b).hostAnswers = s.hostAnswers := rfl
@[simp] theorem State.armFrom_hostCalls (s : State) (b : Byte) : (s.armFrom b).hostCalls = s.hostCalls := rfl

@[simp] theorem State.consumeLoadFlags_A (s : State) : s.consumeLoadFlags.A = s.A := rfl
@[simp] theorem State.consumeLoadFlags_n (s : State) : s.consumeLoadFlags.n = s.n := rfl
@[simp] theorem State.consumeLoadFlags_D (s : State) : s.consumeLoadFlags.D = s.D := rfl
@[simp] theorem State.consumeLoadFlags_ram (s : State) : s.consumeLoadFlags.ram = s.ram := rfl
@[simp] theorem State.consumeLoadFlags_rom (s : State) : s.consumeLoadFlags.rom = s.rom := rfl
@[simp] theorem State.consumeLoadFlags_f16 (s : State) : s.consumeLoadFlags.f16 = false := rfl
@[simp] theorem State.consumeLoadFlags_fli (s : State) : s.consumeLoadFlags.fli = false := rfl
@[simp] theorem State.consumeLoadFlags_fsi (s : State) : s.consumeLoadFlags.fsi = s.fsi := rfl
@[simp] theorem State.consumeLoadFlags_finh (s : State) : s.consumeLoadFlags.finh = s.finh := rfl
@[simp] theorem State.consumeLoadFlags_fw (s : State) : s.consumeLoadFlags.fw = s.fw := rfl
@[simp] theorem State.consumeLoadFlags_warnings (s : State) : s.consumeLoadFlags.warnings = s.warnings := rfl
@[simp] theorem State.consumeLoadFlags_config (s : State) : s.consumeLoadFlags.config = s.config := rfl
@[simp] theorem State.consumeLoadFlags_hostAnswers (s : State) : s.consumeLoadFlags.hostAnswers = s.hostAnswers := rfl
@[simp] theorem State.consumeLoadFlags_hostCalls (s : State) : s.consumeLoadFlags.hostCalls = s.hostCalls := rfl

@[simp] theorem State.consumeStoreFlags_A (s : State) : s.consumeStoreFlags.A = s.A := rfl
@[simp] theorem State.consumeStoreFlags_n (s : State) : s.consumeStoreFlags.n = s.n := rfl
@[simp] theorem State.consumeStoreFlags_D (s : State) : s.consumeStoreFlags.D = s.D := rfl
@[simp] theorem State.consumeStoreFlags_ram (s : State) : s.consumeStoreFlags.ram = s.ram := rfl
@[simp] theorem State.consumeStoreFlags_rom (s : State) : s.consumeStoreFlags.rom = s.rom := rfl
@[simp] theorem State.consumeStoreFlags_f16 (s : State) : s.consumeStoreFlags.f16 = false := rfl
@[simp] theorem State.consumeStoreFlags_fli (s : State) : s.consumeStoreFlags.fli = s.fli := rfl
@[simp] theorem State.consumeStoreFlags_fsi (s : State) : s.consumeStoreFlags.fsi = false := rfl
@[simp] theorem State.consumeStoreFlags_finh (s : State) : s.consumeStoreFlags.finh = false := rfl
@[simp] theorem State.consumeStoreFlags_fw (s : State) : s.consumeStoreFlags.fw = s.fw := rfl
@[simp] theorem State.consumeStoreFlags_warnings (s : State) : s.consumeStoreFlags.warnings = s.warnings := rfl
@[simp] theorem State.consumeStoreFlags_config (s : State) : s.consumeStoreFlags.config = s.config := rfl
@[simp] theorem State.consumeStoreFlags_hostAnswers (s : State) : s.consumeStoreFlags.hostAnswers = s.hostAnswers := rfl
@[simp] theorem State.consumeStoreFlags_hostCalls (s : State) : s.consumeStoreFlags.hostCalls = s.hostCalls := rfl

@[simp] theorem State.hostRead_fst (s : State) (r : BitVec 14) :
    (s.hostRead r).1 = s.hostAnswers.headD noHandlerByte := rfl

end Sys2Proof.Machine
end

