-- ==== Sys2Proof/Laws/Ops.lean ====
section
/-! SUPPORT. What each shared operation can do: which bytes of RAM it writes, and, in one equation each, which fields it
can change at all. -/

namespace Sys2Proof.Machine

/-! ### Stored bytes and pairs -/

theorem State.ramByte_setRam (s : State) (i : Nat) (b : Byte) (x : Nat) :
    (s.setRam i b).ramByte x = if i = x then b else s.ramByte x := Memory.get_set _ _ _ _

@[simp] theorem State.ramByte_setRam_same (s : State) (i : Nat) (b : Byte) : (s.setRam i b).ramByte i = b := by
  simp [State.ramByte_setRam]

theorem State.ramByte_setRam_of_ne (s : State) {i x : Nat} (b : Byte) (h : i ≠ x) :
    (s.setRam i b).ramByte x = s.ramByte x := by simp [State.ramByte_setRam, h]

/-- Two states with one RAM have the same stored bytes. -/
theorem State.ramByte_congr {s t : State} (h : s.ram = t.ram) (i : Nat) : s.ramByte i = t.ramByte i := by
  simp [State.ramByte, h]

/-- Two states with one ROM have the same stored bytes. -/
theorem State.romByte_congr {s t : State} (h : s.rom = t.rom) (i : Nat) : s.romByte i = t.romByte i := by
  simp [State.romByte, h]

/-- Two states with one RAM have the same byte pairs. -/
theorem State.ramPair_congr {s t : State} (h : s.ram = t.ram) (i : Nat) : s.ramPair i = t.ramPair i := by
  simp [State.ramPair, State.ramByte, h]

/-- Two states with one RAM have the same IP. -/
theorem State.pc_congr {s t : State} (h : s.ram = t.ram) : s.pc = t.pc := State.ramPair_congr h 0

/-- Two states with one RAM have the same Loop. -/
theorem State.loop_congr {s t : State} (h : s.ram = t.ram) : s.loop = t.loop := State.ramPair_congr h 2

/-- Two states with one RAM have the same Indirect. -/
theorem State.ind_congr {s t : State} (h : s.ram = t.ram) : s.ind = t.ind := State.ramPair_congr h 4

/-- IP reads what was written to it. -/
theorem State.pc_setPc (s : State) (t : Word) : (s.setPc t).pc = t := by
  have h0 : (s.setPc t).ramByte 0 = t.extractLsb' 0 8 := by simp [State.setPc, State.ramByte_setRam]
  have h1 : (s.setPc t).ramByte (0 + 1) = t.extractLsb' 8 8 := by simp [State.setPc]
  rw [State.pc, State.ramPair, h0, h1]
  ext i hi
  simp only [BitVec.getElem_append, BitVec.getElem_extractLsb']
  split
  · simp [BitVec.getElem_eq_testBit_toNat, BitVec.getLsbD]
  · rw [show 8 + (i - 8) = i by omega, BitVec.getLsbD_eq_getElem hi]

/-! ### The carrying counters -/

/-- `counterUp` changes RAM alone. -/
theorem State.counterUp_eq (s : State) (i : Nat) : s.counterUp i = { s with ram := (s.counterUp i).ram } := by
  unfold State.counterUp
  dsimp only
  split <;> rfl

/-- `counterDown` changes RAM alone. -/
theorem State.counterDown_eq (s : State) (i : Nat) : s.counterDown i = { s with ram := (s.counterDown i).ram } := by
  unfold State.counterDown
  dsimp only
  split <;> rfl

@[simp] theorem State.counterUp_A (s : State) (i : Nat) : (s.counterUp i).A = s.A := by rw [State.counterUp_eq]
@[simp] theorem State.counterUp_n (s : State) (i : Nat) : (s.counterUp i).n = s.n := by rw [State.counterUp_eq]
@[simp] theorem State.counterUp_D (s : State) (i : Nat) : (s.counterUp i).D = s.D := by rw [State.counterUp_eq]
@[simp] theorem State.counterUp_rom (s : State) (i : Nat) : (s.counterUp i).rom = s.rom := by rw [State.counterUp_eq]
@[simp] theorem State.counterUp_f16 (s : State) (i : Nat) : (s.counterUp i).f16 = s.f16 := by rw [State.counterUp_eq]
@[simp] theorem State.counterUp_fli (s : State) (i : Nat) : (s.counterUp i).fli = s.fli := by rw [State.counterUp_eq]
@[simp] theorem State.counterUp_fsi (s : State) (i : Nat) : (s.counterUp i).fsi = s.fsi := by rw [State.counterUp_eq]
@[simp] theorem State.counterUp_finh (s : State) (i : Nat) : (s.counterUp i).finh = s.finh := by rw [State.counterUp_eq]
@[simp] theorem State.counterUp_fw (s : State) (i : Nat) : (s.counterUp i).fw = s.fw := by rw [State.counterUp_eq]
@[simp] theorem State.counterUp_warnings (s : State) (i : Nat) : (s.counterUp i).warnings = s.warnings := by rw [State.counterUp_eq]
@[simp] theorem State.counterUp_config (s : State) (i : Nat) : (s.counterUp i).config = s.config := by rw [State.counterUp_eq]
@[simp] theorem State.counterUp_hostAnswers (s : State) (i : Nat) : (s.counterUp i).hostAnswers = s.hostAnswers := by rw [State.counterUp_eq]
@[simp] theorem State.counterUp_hostCalls (s : State) (i : Nat) : (s.counterUp i).hostCalls = s.hostCalls := by rw [State.counterUp_eq]

/-- `counterUp i` leaves every byte but `i` and `i + 1`. -/
theorem State.ramByte_counterUp_of_ne (s : State) {i x : Nat} (h : i ≠ x) (h' : i + 1 ≠ x) :
    (s.counterUp i).ramByte x = s.ramByte x := by
  unfold State.counterUp
  dsimp only
  split <;> simp [State.ramByte_setRam, h, h']

@[simp] theorem State.counterDown_A (s : State) (i : Nat) : (s.counterDown i).A = s.A := by rw [State.counterDown_eq]
@[simp] theorem State.counterDown_n (s : State) (i : Nat) : (s.counterDown i).n = s.n := by rw [State.counterDown_eq]
@[simp] theorem State.counterDown_D (s : State) (i : Nat) : (s.counterDown i).D = s.D := by rw [State.counterDown_eq]
@[simp] theorem State.counterDown_rom (s : State) (i : Nat) : (s.counterDown i).rom = s.rom := by rw [State.counterDown_eq]
@[simp] theorem State.counterDown_f16 (s : State) (i : Nat) : (s.counterDown i).f16 = s.f16 := by rw [State.counterDown_eq]
@[simp] theorem State.counterDown_fli (s : State) (i : Nat) : (s.counterDown i).fli = s.fli := by rw [State.counterDown_eq]
@[simp] theorem State.counterDown_fsi (s : State) (i : Nat) : (s.counterDown i).fsi = s.fsi := by rw [State.counterDown_eq]
@[simp] theorem State.counterDown_finh (s : State) (i : Nat) : (s.counterDown i).finh = s.finh := by rw [State.counterDown_eq]
@[simp] theorem State.counterDown_fw (s : State) (i : Nat) : (s.counterDown i).fw = s.fw := by rw [State.counterDown_eq]
@[simp] theorem State.counterDown_warnings (s : State) (i : Nat) : (s.counterDown i).warnings = s.warnings := by rw [State.counterDown_eq]
@[simp] theorem State.counterDown_config (s : State) (i : Nat) : (s.counterDown i).config = s.config := by rw [State.counterDown_eq]
@[simp] theorem State.counterDown_hostAnswers (s : State) (i : Nat) : (s.counterDown i).hostAnswers = s.hostAnswers := by rw [State.counterDown_eq]
@[simp] theorem State.counterDown_hostCalls (s : State) (i : Nat) : (s.counterDown i).hostCalls = s.hostCalls := by rw [State.counterDown_eq]

/-- `counterDown i` leaves every byte but `i` and `i + 1`. -/
theorem State.ramByte_counterDown_of_ne (s : State) {i x : Nat} (h : i ≠ x) (h' : i + 1 ≠ x) :
    (s.counterDown i).ramByte x = s.ramByte x := by
  unfold State.counterDown
  dsimp only
  split <;> simp [State.ramByte_setRam, h, h']

/-! ### `FlowWrite` -/

/-- The immediate half of `FlowWrite` changes RAM alone. -/
theorem State.flowCounters_eq (s : State) (b : Byte) :
    s.flowCounters b = { s with ram := (s.flowCounters b).ram } := by
  have ite_eq : ∀ (p : Bool) (u : State), (u = { s with ram := u.ram }) → ∀ f : State → State,
      (∀ u, f u = { u with ram := (f u).ram }) →
      (if p then f u else u) = { s with ram := (if p then f u else u).ram } := by
    intro p u hu f hf
    cases p
    · simpa using hu
    · simp only [if_true]
      rw [hf u, hu]
  exact ite_eq _ _ (ite_eq _ _ (ite_eq _ _ rfl _ (State.counterDown_eq · 2)) _ (State.counterUp_eq · 4)) _
    (State.counterDown_eq · 4)

@[simp] theorem State.flowCounters_A (s : State) (b : Byte) : (s.flowCounters b).A = s.A := by rw [State.flowCounters_eq]
@[simp] theorem State.flowCounters_n (s : State) (b : Byte) : (s.flowCounters b).n = s.n := by rw [State.flowCounters_eq]
@[simp] theorem State.flowCounters_D (s : State) (b : Byte) : (s.flowCounters b).D = s.D := by rw [State.flowCounters_eq]
@[simp] theorem State.flowCounters_rom (s : State) (b : Byte) : (s.flowCounters b).rom = s.rom := by rw [State.flowCounters_eq]
@[simp] theorem State.flowCounters_f16 (s : State) (b : Byte) : (s.flowCounters b).f16 = s.f16 := by rw [State.flowCounters_eq]
@[simp] theorem State.flowCounters_fli (s : State) (b : Byte) : (s.flowCounters b).fli = s.fli := by rw [State.flowCounters_eq]
@[simp] theorem State.flowCounters_fsi (s : State) (b : Byte) : (s.flowCounters b).fsi = s.fsi := by rw [State.flowCounters_eq]
@[simp] theorem State.flowCounters_finh (s : State) (b : Byte) : (s.flowCounters b).finh = s.finh := by rw [State.flowCounters_eq]
@[simp] theorem State.flowCounters_fw (s : State) (b : Byte) : (s.flowCounters b).fw = s.fw := by rw [State.flowCounters_eq]
@[simp] theorem State.flowCounters_warnings (s : State) (b : Byte) : (s.flowCounters b).warnings = s.warnings := by rw [State.flowCounters_eq]
@[simp] theorem State.flowCounters_config (s : State) (b : Byte) : (s.flowCounters b).config = s.config := by rw [State.flowCounters_eq]
@[simp] theorem State.flowCounters_hostAnswers (s : State) (b : Byte) : (s.flowCounters b).hostAnswers = s.hostAnswers := by rw [State.flowCounters_eq]
@[simp] theorem State.flowCounters_hostCalls (s : State) (b : Byte) : (s.flowCounters b).hostCalls = s.hostCalls := by rw [State.flowCounters_eq]

/-- The immediate half of `FlowWrite` leaves every byte but 2 to 5. -/
theorem State.ramByte_flowCounters_of_ne (s : State) (b : Byte) {x : Nat} (h : x < 2 ∨ 5 < x) :
    (s.flowCounters b).ramByte x = s.ramByte x := by
  have h2 : 2 ≠ x ∧ 2 + 1 ≠ x ∧ 4 ≠ x ∧ 4 + 1 ≠ x := by omega
  unfold State.flowCounters
  dsimp only
  split <;> split <;> split <;>
    simp [State.ramByte_counterUp_of_ne, State.ramByte_counterDown_of_ne, h2]

/-- `FlowWrite` changes RAM, the armed flags and `fw`. -/
theorem State.flowWrite_eq (s : State) (b : Byte) :
    s.flowWrite b =
      { s with
        ram := (s.flowWrite b).ram, f16 := (s.flowWrite b).f16, fli := (s.flowWrite b).fli
        fsi := (s.flowWrite b).fsi, finh := (s.flowWrite b).finh, fw := (s.flowWrite b).fw } := by
  unfold State.flowWrite
  rw [State.flowCounters_eq]
  rfl

@[simp] theorem State.flowWrite_A (s : State) (b : Byte) : (s.flowWrite b).A = s.A := by rw [State.flowWrite_eq]
@[simp] theorem State.flowWrite_n (s : State) (b : Byte) : (s.flowWrite b).n = s.n := by rw [State.flowWrite_eq]
@[simp] theorem State.flowWrite_D (s : State) (b : Byte) : (s.flowWrite b).D = s.D := by rw [State.flowWrite_eq]
@[simp] theorem State.flowWrite_rom (s : State) (b : Byte) : (s.flowWrite b).rom = s.rom := by rw [State.flowWrite_eq]
@[simp] theorem State.flowWrite_warnings (s : State) (b : Byte) : (s.flowWrite b).warnings = s.warnings := by rw [State.flowWrite_eq]
@[simp] theorem State.flowWrite_config (s : State) (b : Byte) : (s.flowWrite b).config = s.config := by rw [State.flowWrite_eq]
@[simp] theorem State.flowWrite_hostAnswers (s : State) (b : Byte) : (s.flowWrite b).hostAnswers = s.hostAnswers := by rw [State.flowWrite_eq]
@[simp] theorem State.flowWrite_hostCalls (s : State) (b : Byte) : (s.flowWrite b).hostCalls = s.hostCalls := by rw [State.flowWrite_eq]

/-! ### `Read8` and `Write8` -/

/-- A read changes the warning log and the host's side alone. -/
theorem State.read8_eq (s : State) (a : Nat) :
    (s.read8 a).2 =
      { s with
        warnings := (s.read8 a).2.warnings, hostAnswers := (s.read8 a).2.hostAnswers
        hostCalls := (s.read8 a).2.hostCalls } := by
  unfold State.read8
  repeat' split
  all_goals rfl

@[simp] theorem State.read8_A (s : State) (a : Nat) : (s.read8 a).2.A = s.A := by rw [State.read8_eq]
@[simp] theorem State.read8_n (s : State) (a : Nat) : (s.read8 a).2.n = s.n := by rw [State.read8_eq]
@[simp] theorem State.read8_D (s : State) (a : Nat) : (s.read8 a).2.D = s.D := by rw [State.read8_eq]
@[simp] theorem State.read8_ram (s : State) (a : Nat) : (s.read8 a).2.ram = s.ram := by rw [State.read8_eq]
@[simp] theorem State.read8_rom (s : State) (a : Nat) : (s.read8 a).2.rom = s.rom := by rw [State.read8_eq]
@[simp] theorem State.read8_f16 (s : State) (a : Nat) : (s.read8 a).2.f16 = s.f16 := by rw [State.read8_eq]
@[simp] theorem State.read8_fli (s : State) (a : Nat) : (s.read8 a).2.fli = s.fli := by rw [State.read8_eq]
@[simp] theorem State.read8_fsi (s : State) (a : Nat) : (s.read8 a).2.fsi = s.fsi := by rw [State.read8_eq]
@[simp] theorem State.read8_finh (s : State) (a : Nat) : (s.read8 a).2.finh = s.finh := by rw [State.read8_eq]
@[simp] theorem State.read8_fw (s : State) (a : Nat) : (s.read8 a).2.fw = s.fw := by rw [State.read8_eq]
@[simp] theorem State.read8_config (s : State) (a : Nat) : (s.read8 a).2.config = s.config := by rw [State.read8_eq]

/-- A write changes RAM, the flags, the warning log and the record of host calls. -/
theorem State.write8_eq (s : State) (a : Nat) (b : Byte) :
    s.write8 a b =
      { s with
        ram := (s.write8 a b).ram, f16 := (s.write8 a b).f16, fli := (s.write8 a b).fli
        fsi := (s.write8 a b).fsi, finh := (s.write8 a b).finh, fw := (s.write8 a b).fw
        warnings := (s.write8 a b).warnings, hostCalls := (s.write8 a b).hostCalls } := by
  unfold State.write8
  split
  · rfl
  · split
    · rfl
    · split
      · rfl
      · split
        · rfl
        · split
          · rw [State.flowWrite_eq]
          · rfl

@[simp] theorem State.write8_A (s : State) (a : Nat) (b : Byte) : (s.write8 a b).A = s.A := by rw [State.write8_eq]
@[simp] theorem State.write8_n (s : State) (a : Nat) (b : Byte) : (s.write8 a b).n = s.n := by rw [State.write8_eq]
@[simp] theorem State.write8_D (s : State) (a : Nat) (b : Byte) : (s.write8 a b).D = s.D := by rw [State.write8_eq]
@[simp] theorem State.write8_rom (s : State) (a : Nat) (b : Byte) : (s.write8 a b).rom = s.rom := by rw [State.write8_eq]
@[simp] theorem State.write8_config (s : State) (a : Nat) (b : Byte) : (s.write8 a b).config = s.config := by rw [State.write8_eq]
@[simp] theorem State.write8_hostAnswers (s : State) (a : Nat) (b : Byte) : (s.write8 a b).hostAnswers = s.hostAnswers := by rw [State.write8_eq]

/-- A read of one or two bytes changes the warning log and the host's side alone. -/
theorem State.memRead_eq (s : State) (a : Word) (wide : Bool) :
    (s.memRead a wide).2 =
      { s with
        warnings := (s.memRead a wide).2.warnings, hostAnswers := (s.memRead a wide).2.hostAnswers
        hostCalls := (s.memRead a wide).2.hostCalls } := by
  cases wide
  · exact State.read8_eq s _
  · apply State.ext <;> simp [State.memRead]

@[simp] theorem State.memRead_A (s : State) (a : Word) (wide : Bool) : (s.memRead a wide).2.A = s.A := by rw [State.memRead_eq]
@[simp] theorem State.memRead_n (s : State) (a : Word) (wide : Bool) : (s.memRead a wide).2.n = s.n := by rw [State.memRead_eq]
@[simp] theorem State.memRead_D (s : State) (a : Word) (wide : Bool) : (s.memRead a wide).2.D = s.D := by rw [State.memRead_eq]
@[simp] theorem State.memRead_ram (s : State) (a : Word) (wide : Bool) : (s.memRead a wide).2.ram = s.ram := by rw [State.memRead_eq]
@[simp] theorem State.memRead_rom (s : State) (a : Word) (wide : Bool) : (s.memRead a wide).2.rom = s.rom := by rw [State.memRead_eq]
@[simp] theorem State.memRead_f16 (s : State) (a : Word) (wide : Bool) : (s.memRead a wide).2.f16 = s.f16 := by rw [State.memRead_eq]
@[simp] theorem State.memRead_fli (s : State) (a : Word) (wide : Bool) : (s.memRead a wide).2.fli = s.fli := by rw [State.memRead_eq]
@[simp] theorem State.memRead_fsi (s : State) (a : Word) (wide : Bool) : (s.memRead a wide).2.fsi = s.fsi := by rw [State.memRead_eq]
@[simp] theorem State.memRead_finh (s : State) (a : Word) (wide : Bool) : (s.memRead a wide).2.finh = s.finh := by rw [State.memRead_eq]
@[simp] theorem State.memRead_fw (s : State) (a : Word) (wide : Bool) : (s.memRead a wide).2.fw = s.fw := by rw [State.memRead_eq]
@[simp] theorem State.memRead_config (s : State) (a : Word) (wide : Bool) : (s.memRead a wide).2.config = s.config := by rw [State.memRead_eq]

/-- A write of one or two bytes changes RAM, the flags, the warning log and the record of host calls. -/
theorem State.memWrite_eq (s : State) (a : Word) (wide : Bool) (v : Word) :
    s.memWrite a wide v =
      { s with
        ram := (s.memWrite a wide v).ram, f16 := (s.memWrite a wide v).f16, fli := (s.memWrite a wide v).fli
        fsi := (s.memWrite a wide v).fsi, finh := (s.memWrite a wide v).finh, fw := (s.memWrite a wide v).fw
        warnings := (s.memWrite a wide v).warnings, hostCalls := (s.memWrite a wide v).hostCalls } := by
  cases wide
  · exact State.write8_eq s _ _
  · apply State.ext <;> simp [State.memWrite]

@[simp] theorem State.memWrite_A (s : State) (a : Word) (wide : Bool) (v : Word) : (s.memWrite a wide v).A = s.A := by rw [State.memWrite_eq]
@[simp] theorem State.memWrite_n (s : State) (a : Word) (wide : Bool) (v : Word) : (s.memWrite a wide v).n = s.n := by rw [State.memWrite_eq]
@[simp] theorem State.memWrite_D (s : State) (a : Word) (wide : Bool) (v : Word) : (s.memWrite a wide v).D = s.D := by rw [State.memWrite_eq]
@[simp] theorem State.memWrite_rom (s : State) (a : Word) (wide : Bool) (v : Word) : (s.memWrite a wide v).rom = s.rom := by rw [State.memWrite_eq]
@[simp] theorem State.memWrite_config (s : State) (a : Word) (wide : Bool) (v : Word) : (s.memWrite a wide v).config = s.config := by rw [State.memWrite_eq]
@[simp] theorem State.memWrite_hostAnswers (s : State) (a : Word) (wide : Bool) (v : Word) : (s.memWrite a wide v).hostAnswers = s.hostAnswers := by rw [State.memWrite_eq]

/-! ### `FinalA` -/

/-- `FinalA` changes `A`, the push count and the warning log, in the way R68 says. -/
theorem State.finalA_eq (s : State) (data : Chunk) :
    s.finalA data =
      (finalValue s.A s.n data,
        { s with
          A := finalValue s.A s.n data, n := 0
          warnings := s.warnings ++ if 2 < s.n then [.tooManyPushes s.n] else [] }) := by
  unfold State.finalA
  dsimp only
  split <;> simp [State.warn]

@[simp] theorem State.finalA_fst (s : State) (data : Chunk) : (s.finalA data).1 = finalValue s.A s.n data := rfl
@[simp] theorem State.finalA_A (s : State) (data : Chunk) : (s.finalA data).2.A = finalValue s.A s.n data := rfl
@[simp] theorem State.finalA_n (s : State) (data : Chunk) : (s.finalA data).2.n = 0 := rfl
@[simp] theorem State.finalA_warnings (s : State) (data : Chunk) :
    (s.finalA data).2.warnings = s.warnings ++ if 2 < s.n then [.tooManyPushes s.n] else [] := by rw [State.finalA_eq]
@[simp] theorem State.finalA_D (s : State) (data : Chunk) : (s.finalA data).2.D = s.D := by rw [State.finalA_eq]
@[simp] theorem State.finalA_ram (s : State) (data : Chunk) : (s.finalA data).2.ram = s.ram := by rw [State.finalA_eq]
@[simp] theorem State.finalA_rom (s : State) (data : Chunk) : (s.finalA data).2.rom = s.rom := by rw [State.finalA_eq]
@[simp] theorem State.finalA_f16 (s : State) (data : Chunk) : (s.finalA data).2.f16 = s.f16 := by rw [State.finalA_eq]
@[simp] theorem State.finalA_fli (s : State) (data : Chunk) : (s.finalA data).2.fli = s.fli := by rw [State.finalA_eq]
@[simp] theorem State.finalA_fsi (s : State) (data : Chunk) : (s.finalA data).2.fsi = s.fsi := by rw [State.finalA_eq]
@[simp] theorem State.finalA_finh (s : State) (data : Chunk) : (s.finalA data).2.finh = s.finh := by rw [State.finalA_eq]
@[simp] theorem State.finalA_fw (s : State) (data : Chunk) : (s.finalA data).2.fw = s.fw := by rw [State.finalA_eq]
@[simp] theorem State.finalA_config (s : State) (data : Chunk) : (s.finalA data).2.config = s.config := by rw [State.finalA_eq]
@[simp] theorem State.finalA_hostAnswers (s : State) (data : Chunk) : (s.finalA data).2.hostAnswers = s.hostAnswers := by rw [State.finalA_eq]
@[simp] theorem State.finalA_hostCalls (s : State) (data : Chunk) : (s.finalA data).2.hostCalls = s.hostCalls := by rw [State.finalA_eq]

/-! ### The fetch -/

/-- The fetch changes the IP bytes, the warning log and the host's side alone. -/
theorem State.fetch_eq (s : State) :
    s.fetch.2 =
      { s with
        ram := s.fetch.2.ram, warnings := s.fetch.2.warnings, hostAnswers := s.fetch.2.hostAnswers
        hostCalls := s.fetch.2.hostCalls } := by
  apply State.ext <;> simp [State.fetch]

@[simp] theorem State.fetch_A (s : State) : s.fetch.2.A = s.A := by rw [State.fetch_eq]
@[simp] theorem State.fetch_n (s : State) : s.fetch.2.n = s.n := by rw [State.fetch_eq]
@[simp] theorem State.fetch_D (s : State) : s.fetch.2.D = s.D := by rw [State.fetch_eq]
@[simp] theorem State.fetch_rom (s : State) : s.fetch.2.rom = s.rom := by rw [State.fetch_eq]
@[simp] theorem State.fetch_f16 (s : State) : s.fetch.2.f16 = s.f16 := by rw [State.fetch_eq]
@[simp] theorem State.fetch_fli (s : State) : s.fetch.2.fli = s.fli := by rw [State.fetch_eq]
@[simp] theorem State.fetch_fsi (s : State) : s.fetch.2.fsi = s.fsi := by rw [State.fetch_eq]
@[simp] theorem State.fetch_finh (s : State) : s.fetch.2.finh = s.finh := by rw [State.fetch_eq]
@[simp] theorem State.fetch_fw (s : State) : s.fetch.2.fw = s.fw := by rw [State.fetch_eq]
@[simp] theorem State.fetch_config (s : State) : s.fetch.2.config = s.config := by rw [State.fetch_eq]

/-- The fetch leaves every byte but IP's. -/
theorem State.ramByte_fetch (s : State) {x : Nat} (h : 2 ≤ x) : s.fetch.2.ramByte x = s.ramByte x := by
  show ((s.read8 s.pc.toNat).2.counterUp 0).ramByte x = _
  rw [State.ramByte_counterUp_of_ne _ (by omega) (by omega)]
  exact State.ramByte_congr (State.read8_ram s _) x

/-! ### Effective addresses and the skip, which read RAM and flags alone -/

@[simp] theorem State.ramByte_finalA (s : State) (data : Chunk) (i : Nat) :
    (s.finalA data).2.ramByte i = s.ramByte i := State.ramByte_congr (State.finalA_ram s data) i

@[simp] theorem State.loadAddress_finalA (s : State) (data : Chunk) (v : Word) :
    (s.finalA data).2.loadAddress v = s.loadAddress v := by simp [State.loadAddress, State.ind, State.ramPair]

@[simp] theorem State.storeAddress_finalA (s : State) (data : Chunk) (v : Word) :
    (s.finalA data).2.storeAddress v = s.storeAddress v := by simp [State.storeAddress, State.ind, State.ramPair]

@[simp] theorem State.storeSkipped_finalA (s : State) (data : Chunk) :
    (s.finalA data).2.storeSkipped = s.storeSkipped := by simp [State.storeSkipped]

end Sys2Proof.Machine
end

