-- ==== Sys2Proof/Laws/Exec.lean ====
section
/-! SUPPORT. Each instruction's next state over the shared operations, `step` over `exec`, and runs one step at a time.
Proofs rewrite with these and never unfold a meaning. -/

namespace Sys2Proof.Machine

theorem exec_pushA (s : State) (data : Chunk) :
    exec (.pushA data) s = .next { s with A := mergeChunk s.A s.n data, n := s.n + 1 } := rfl

theorem exec_aMovD (s : State) (data : Chunk) :
    exec (.aMovD data) s = .next { (s.finalA data).2 with D := finalValue s.A s.n data } := rfl

theorem exec_asMovD (s : State) (data : Chunk) :
    exec (.asMovD data) s =
      .next
        { ((s.finalA data).2.consumeLoadFlags.memRead (s.loadAddress (finalValue s.A s.n data)) s.f16).2 with
          D := ((s.finalA data).2.consumeLoadFlags.memRead (s.loadAddress (finalValue s.A s.n data)) s.f16).1 } := by
  rw [← State.loadAddress_finalA s data, ← State.finalA_f16 s data]
  rfl

theorem exec_dMovAs (s : State) (data : Chunk) :
    exec (.dMovAs data) s =
      .next
        (if s.storeSkipped then (s.finalA data).2.consumeStoreFlags
        else (s.finalA data).2.consumeStoreFlags.memWrite (s.storeAddress (finalValue s.A s.n data)) s.f16 s.D) := by
  rw [← State.storeSkipped_finalA s data, ← State.storeAddress_finalA s data, ← State.finalA_f16 s data,
    ← State.finalA_D s data]
  exact (apply_ite Host.Outcome.next _ _ _).symm

/-- `step` is `exec` of the decoded byte at the state the fetch leaves. -/
theorem step_eq (s : State) : step s = exec (decodeByte s.config s.fetch.1) s.fetch.2 := rfl

theorem runs_zero (s t : State) : Runs 0 s t ↔ s = t :=
  ⟨fun h => Host.Outcome.next.inj h, fun h => congrArg Host.Outcome.next h⟩

/-- A run of `k + 1` steps is a step, then a run of `k`. -/
theorem runs_succ (k : Nat) (s u : State) : Runs (k + 1) s u ↔ ∃ t, step s = .next t ∧ Runs k t u := by
  have h : core.step s = step s := rfl
  simp only [Runs, Host.Core.run, h]
  generalize step s = o
  cases o <;> simp

end Sys2Proof.Machine
end

