-- ==== Sys2Proof/Laws/PerInstr.lean ====
section
/-! SUPPORT. Statements about every instruction as syntax, one lemma per constructor. -/

namespace Sys2Proof.Laws

/-- The byte of an instruction holds its opcode number in bits 7:6 and its data in bits 5:0 (R50). -/
def ByteFields.Statement (i : Instr) : Prop :=
  ∀ cfg : Config, opField (encodeByte cfg i) = i.opcode cfg ∧ dataField (encodeByte cfg i) = i.data

/-- The packing of R57 can be taken apart again. -/
theorem fields_of_assembled (opcode : BitVec 2) (data : Chunk) :
    opField (assembleOneRawInstruction opcode data.toNat) = opcode ∧
      dataField (assembleOneRawInstruction opcode data.toNat) = data := by
  revert opcode data
  decide +kernel

theorem ByteFields.pushA (data : Chunk) : ByteFields.Statement (.pushA data) := fun _ => fields_of_assembled _ _
theorem ByteFields.aMovD (data : Chunk) : ByteFields.Statement (.aMovD data) := fun _ => fields_of_assembled _ _
theorem ByteFields.asMovD (data : Chunk) : ByteFields.Statement (.asMovD data) := fun _ => fields_of_assembled _ _
theorem ByteFields.dMovAs (data : Chunk) : ByteFields.Statement (.dMovAs data) := fun _ => fields_of_assembled _ _

end Sys2Proof.Laws
end

