-- ==== Sys2Proof/Tests/Slice0.lean ====
section
/-! SUPPORT. The model's own tests, each with its source, and for every statement with hypotheses a state and operands that
meet them (`witness_<statement>`). -/

set_option Elab.async false

namespace Sys2Proof.Machine

/-! ### Helpers -/

/-- Reset with a few bytes in ROM from 0x8000 on. -/
def withRom (bytes : List Byte) : State := { State.reset with rom := emitBytes [] 0 bytes }

/-- A state with a register pair of the window set. -/
def setPair (s : State) (i : Nat) (v : Word) : State :=
  (s.setRam i (v.extractLsb' 0 8)).setRam (i + 1) (v.extractLsb' 8 8)

/-- What a test asks of the state an outcome ends in. -/
def after (o : Host.Outcome State Fault Refusal) (p : State → Bool) : Bool :=
  match o with
  | .next t => p t
  | .fault _ => false
  | .refused _ => false

/-- All four flags armed, a full accumulator, one push made. -/
def busy : State :=
  { State.reset with A := 0xFFFF, n := 1, D := 0x1234, f16 := true, fli := true, fsi := true, finh := true }

/-- Only sixteen-wide armed, `D` = 0xBEEF. -/
def wide : State := { State.reset with D := 0xBEEF, f16 := true }

/-- Two pushes made that put `hi` into A[15:6]. -/
def pushed (s : State) (hi : BitVec 10) : State := { s with A := hi ++ (0 : BitVec 6), n := 2 }

/-! ### Decoding: words written out from spec/30_encoding.md R50, R51 (default opcode numbers) -/

theorem test_word_pushA : decodeTableWord 8 0b00001000 = some (.pushA 8) := by decide
theorem test_word_aMovD : decodeTableWord 8 0b01110100 = some (.aMovD 0x34) := by decide
theorem test_word_asMovD : decodeTableWord 8 0b10010000 = some (.asMovD 0x10) := by decide
theorem test_word_dMovAs : decodeTableWord 8 0b11000111 = some (.dMovAs 7) := by decide

/-- Another numbering that R6 admits: the opcodes in the opposite order. -/
def otherNumbers : Config := { Config.default with opcPushA := 3, opcAMovD := 2, opcAsMovD := 1, opcDMovAs := 0 }

theorem test_other_numbers :
    decode otherNumbers [0b11001000, 0b10110100, 0b01000101] = .ok (.pushA 8, [0b10110100, 0b01000101]) ∧
      decodeByte otherNumbers 0b10110100 = .aMovD 0x34 ∧ decodeByte otherNumbers 0b01000101 = .asMovD 5 ∧
      decodeByte otherNumbers 0b00000111 = .dMovAs 7 := by decide

theorem test_decode_refuses_no_byte : decode Config.default [] = .error .noByte := rfl

/-- The bytes of V18, and of `encode(DMovAs, 0x4000)` (spec/95_test_vectors.md 2.2). -/
theorem test_encode :
    encodeValue Config.default .aMovD 0x1234 = [0x08, 0x01, 0x74] ∧
      encodeValue Config.default .dMovAs 0x4000 = [0x00, 0x04, 0xC0] := by decide

/-- V6, V9, V10, V13. -/
theorem test_chunks :
    chunks 0xFFDF = [0x3F, 0x1F] ∧ chunks 0xF800 = [0x20, 0x00] ∧ chunks 0xF7FF = [0x1F, 0x0F, 0x3F] ∧
      chunks 0x003F = [0x00, 0x3F] := by decide

/-! ### WellFormed: each check refuses an ill-formed term -/

theorem test_wf_default : Config.default.Legal := by decide
theorem test_wf_equal_opcodes : ¬ { Config.default with opcAMovD := 0 }.Legal := by decide
theorem test_wf_equal_flow_bits : ¬ { Config.default with fbFrameWait := 3 }.Legal := by decide
theorem test_wf_duplicate_label : ¬ Leaf.WellFormed [.atLabel "A", .rawData [1], .atLabel "A"] := by decide
theorem test_wf_missing_label : ¬ Leaf.WellFormed [.descriptor .aMovD (.labelRef "X")] := by decide
theorem test_wf_origin_too_high : ¬ Leaf.WellFormed [.atOrigin 0x10000] := by decide
theorem test_wf_origin_negative : ¬ Leaf.WellFormed [.atOrigin (-1)] := by decide
theorem test_wf_program : Leaf.WellFormed [.descriptor .aMovD (.labelRef "X"), .atLabel "X"] := by decide

/-! ### One step, vectors of spec/95_test_vectors.md section 3 -/

/-- V30: only bits 11:6 are replaced. -/
theorem test_pushA_even :
    after (step { withRom [0x15] with A := 0xFFFF }) (fun t => t.A == 0xF57F && t.n == 1) = true := by decide +kernel

/-- V31, its second step: bits 15:12 from data[3:0]. -/
theorem test_pushA_odd :
    after (step { withRom [0x3A] with A := 0xF57F, n := 1 }) (fun t => t.A == 0xA57F && t.n == 2) = true := by decide +kernel

/-- V36, its second step: twelve bits, sign-extended. -/
theorem test_aMovD_signed :
    after (step { withRom [0x40] with A := 0x0800, n := 1 }) (fun t => t.D == 0xF800 && t.n == 0) = true := by decide +kernel

/-- V39, its last step: more than two pushes. -/
theorem test_aMovD_too_many :
    after (step { withRom [0x44] with A := 0x20FF, n := 3 })
      (fun t => t.D == 0x20C4 && t.warnings == [.tooManyPushes 3] && t.n == 0) = true := by decide +kernel

/-- V48e: sixteen-wide over the two views. -/
theorem test_asMovD_views :
    after (step { setPair (withRom [0x86]) 4 0x0FA5 with f16 := true }) (fun t => t.D == 0xD2FA && !t.f16) = true := by
  decide +kernel

/-- V50c: load-indirect used up, the store's flags not. -/
theorem test_asMovD_indirect :
    after (step { (setPair (withRom [0x90]) 4 0x0020).setRam 0x20 0x99 with fli := true, fsi := true, finh := true })
      (fun t => t.D == 0x0099 && !t.fli && t.fsi && t.finh) = true := by decide +kernel

/-- V51c: at 0xFFFF sixteen-wide nothing is stored, two warnings. -/
theorem test_dMovAs_map_end :
    after (step { withRom [0xFF] with D := 0x1234, f16 := true })
      (fun t => t.warnings == [.romWrite 0xFFFF, .outOfRangeWrite 0x10000] && !t.f16 && t.pc == 0x8001) = true := by
  decide +kernel

/-- V55h: every Flow bit at once; up and down on Indirect cancel. -/
theorem test_dMovAs_flow :
    after (step { setPair (setPair (withRom [0xC7]) 2 0x0100) 4 0x00FF with D := 0xFF })
      (fun t => t.loop == 0x00FF && t.ind == 0x00FF && t.f16 && t.fli && t.fsi && t.finh && t.fw) = true := by decide +kernel

/-- V61: IP wraps from 0xFFFF to 0x0000. -/
theorem test_step_ip_wraps :
    after (step { State.reset.setPc 0xFFFF with rom := [(0x7FFF, 0x45)] }) (fun t => t.D == 5 && t.pc == 0) = true := by
  decide +kernel

/-- V64: a fetch from the I/O region calls the host. -/
theorem test_step_fetch_from_host :
    after (step ((State.reset.setPc 0x4000).attachHandler [0x45]))
      (fun t => t.D == 5 && t.hostCalls == [.read 0 0x45] && t.pc == 0x4001) = true := by decide +kernel

/-- `withFetchWord` puts the word where the next step fetches it, at reset (R49, R108). -/
theorem test_withFetchWord :
    after (step (State.reset.withFetchWord 8 0b01000101)) (fun t => t.D == 5 && t.pc == 0x8001) = true := by decide +kernel

/-! ### Assembler, spec/95_test_vectors.md section 5 -/

/-- V70. -/
theorem test_asm_unresolved :
    assemble Config.default (.leaf (.descriptor .aMovD (.labelRef "X"))) = .error (.unresolvedLabel "X") := by decide +kernel

/-- V72: the later write stands. -/
theorem test_asm_overlap :
    assembleLeaves Config.default [.atOrigin 0x8000, .rawData [1, 2, 3], .atOrigin 0x8001, .rawData [9]] =
      .ok [(0x8000, 1), (0x8001, 9), (0x8002, 3)] := by decide +kernel

/-- V73. -/
theorem test_asm_duplicate :
    assembleLeaves Config.default [.atLabel "A", .atLabel "A"] = .error (.refused (.duplicateLabel "A")) := by decide +kernel

/-- V74, and a label met at 0x10000 (R92). -/
theorem test_asm_past_end :
    assembleLeaves Config.default [.atOrigin 0xFFFF, .rawData [1, 2]] = .error (.refused (.pastImageEnd 0xFFFF)) ∧
      assembleLeaves Config.default [.atOrigin 0xFFFF, .rawData [1], .atLabel "E"] =
        .error (.refused (.labelPastImageEnd "E")) := by decide +kernel

/-- V75. -/
theorem test_asm_last_byte :
    assembleLeaves Config.default [.atOrigin 0xFFFF, .rawData [1]] = .ok [(0xFFFF, 1)] := by decide +kernel

/-- 5.2, the drift of S7: L is 0xF803, the byte it was meant to name stands at 0xF802. -/
theorem test_asm_drift :
    assembleLeaves Config.default
        [.atOrigin 0xF800, .descriptor .aMovD (.labelRef "L"), .atLabel "L", .rawData [0xAA]] =
      .ok [(0xF800, 0x20), (0xF801, 0x43), (0xF802, 0xAA)] := by decide +kernel

/-- V77. -/
theorem test_asm_nesting :
    assemble Config.default
        (.seq [.seq [.leaf (.descriptor .aMovD (.lit 1))], .seq [], .leaf (.descriptor .dMovAs (.lit 7))]) =
      .ok [(0, 0x41), (1, 0xC7)] := by decide +kernel

/-! ### Witnesses: encoding -/

theorem witness_DecodeOfEncode : otherNumbers.OpcodesDistinct ∧ (Instr.dMovAs 0x3F).WellFormed := by decide +kernel

theorem witness_EncodeOfDecode : otherNumbers.OpcodesDistinct ∧ Config.default.OpcodesDistinct := by decide +kernel

/-- One value at each end of each range of R54. -/
theorem witness_ChunksOfNegativeValues :
    ((0xFFE0 : Word).msb = true ∧ -32 ≤ (0xFFE0 : Word).toInt) ∧ ((0xFFFF : Word).msb = true ∧ -32 ≤ (0xFFFF : Word).toInt) ∧
      (([0xFFC0, 0xFFDF] : List Word).all fun v => v.msb && decide (-64 ≤ v.toInt ∧ v.toInt < -32)) = true ∧
      (([0xF800, 0xFFBF] : List Word).all fun v => v.msb && decide (-2048 ≤ v.toInt ∧ v.toInt < -64)) = true ∧
      (([0x8000, 0xF7FF] : List Word).all fun v => v.msb && decide (v.toInt < -2048)) = true := by decide +kernel

/-- One value at each end of each range of R55. -/
theorem witness_ChunksOfNonNegativeValues :
    (([0x0000, 0x001F] : List Word).all fun v => !v.msb && decide (v.toInt ≤ 31)) = true ∧
      (([0x0020, 0x003F] : List Word).all fun v => !v.msb && decide (31 < v.toInt ∧ v.toInt ≤ 63)) = true ∧
      (([0x0040, 0x07FF] : List Word).all fun v => !v.msb && decide (63 < v.toInt ∧ v.toInt ≤ 2047)) = true ∧
      (([0x0800, 0x7FFF] : List Word).all fun v => !v.msb && decide (2047 < v.toInt)) = true := by decide +kernel

/-- V18, V17 and V4 of spec/95_test_vectors.md: three chunks, two, one. -/
theorem witness_BuilderPushesThenOpcode :
    (chunks 0x1234).length = 3 ∧ (chunks 0x0100).length = 2 ∧ (chunks 0xFFFF).length = 1 := by decide +kernel

theorem witness_SequenceEndsAtFirstNonPush :
    (([0x08, 0x01] : List Byte).all fun p => decide (opField p = Config.default.opcPushA)) = true ∧
      opField 0x74 ≠ Config.default.opcPushA := by decide +kernel

theorem witness_FinalAReturnsEncodedValue :
    ({ busy with n := 0 } : State).config.OpcodesDistinct ∧ ({ busy with n := 0 } : State).n = 0 := by decide +kernel

/-- The three bytes of `AMovD 0x1234` (V18) in ROM at IP. -/
theorem witness_EncodedLiteralRunsInRom :
    let s := withRom [0x08, 0x01, 0x74]
    s.config.OpcodesDistinct ∧ s.n = 0 ∧ s.RomHolds s.pc.toNat (encodeValue s.config .aMovD 0x1234) := by decide +kernel

/-! ### Witnesses: reset and steps -/

/-- The ends of the index ranges named. -/
theorem witness_ResetValues_RomLoadTakesUpperHalf_StepRunsDecodedInstruction :
    2 ≤ 2 ∧ ∀ i ∈ [0, 0x7FFF], i < 0x8000 := by decide +kernel

theorem witness_ResetWellFormed : Memory.wf [(0x7FFF, 1), (0x8000, 0x45)] := by decide +kernel

/-- A step that stores to RAM. -/
theorem witness_StepKeepsWellFormed :
    { withRom [0xC9] with D := 5 }.WellFormed ∧ ∃ t, step { withRom [0xC9] with D := 5 } = .next t :=
  ⟨by decide +kernel, _, rfl⟩

/-- A store to ROM; and the two ends of ROM. -/
theorem witness_RomIsReadOnly :
    (∃ t, step { withRom [0xFF] with D := 5 } = .next t) ∧ (0x8000 ≤ 0x8000 ∧ 0x8000 < 0x10000) ∧
      (0x8000 ≤ 0xFFFF ∧ 0xFFFF < 0x10000) := ⟨⟨_, rfl⟩, by decide⟩

theorem witness_ParametersNeverChange : ∃ t, step { withRom [0xC7] with D := 0xFF } = .next t := ⟨_, rfl⟩

theorem witness_FrameWaitNeverRead :
    (∃ t, step { withRom [0xC7] with fw := true } = .next t ∧ { withRom [0xC7] with fw := true }.fw = true) ∧
      ∃ t, step { withRom [0xC7] with D := 0xFF } = .next t ∧ { withRom [0xC7] with D := 0xFF }.fw = false :=
  ⟨⟨_, rfl, rfl⟩, _, rfl, rfl⟩

/-- R97's three warnings in one step. -/
theorem witness_LogsOnlyGrow :
    (∃ t, step { withRom [0xFF] with A := 0xFFFF, n := 3, f16 := true } = .next t) ∧
      after (step { withRom [0xFF] with A := 0xFFFF, n := 3, f16 := true }) (fun t => t.warnings.length == 3) = true :=
  ⟨⟨_, rfl⟩, by decide⟩

/-- One push made: A[11:6] agrees, the stale rest differs. -/
theorem witness_StaleAccumulatorUnobservable :
    AlikeButStaleA { withRom [0x45] with A := 0xF07F, n := 1 } { withRom [0x45] with A := 0x0040, n := 1 } ∧
      ∃ t, step { withRom [0x45] with A := 0xF07F, n := 1 } = .next t := ⟨by decide +kernel, _, rfl⟩

/-- The loop `AMovD 0; DMovAs 0` of R120 at 0x8000, entered once: two steps lead back, one step leads elsewhere. -/
def looping : State := { withRom [0x40, 0xC0] with D := 0 }

theorem witness_SelfLoopIsSilent : Runs 2 looping looping ∧ 1 ≤ 2 ∧ ∃ t, Runs 1 looping t := ⟨rfl, by decide, _, rfl⟩

/-- V54a: bytes 50 C0 at 0x8010, and the ends of the range of `k`. -/
def idiomAt (k : Chunk) (a : Word) : State :=
  { State.reset.setPc a with
    rom := emitBytes [] (a.toNat - 0x8000)
      [encodeByte Config.default (.aMovD k), encodeByte Config.default (.dMovAs 0)] }

theorem witness_TwoByteIdiomSelfLoops :
    (([(0x10, 0x8010), (0, 0x8000), (31, 0xFF1F)] : List (Chunk × Word)).all fun p =>
      let s := idiomAt p.1 p.2
      decide (s.config.OpcodesDistinct ∧ s.WellFormed ∧ s.Unarmed ∧ s.n = 0 ∧ p.1.toNat < 32 ∧
        s.pc.toNat % 256 = p.1.toNat ∧
        s.RomHolds s.pc.toNat [encodeByte s.config (.aMovD p.1), encodeByte s.config (.dMovAs 0)])) = true := by decide +kernel

/-! ### Witnesses: memory -/

/-- The ends of every region of R32 and R33. -/
theorem witness_ReadByteMap :
    0x10000 ≤ 0x10000 ∧ (∀ a ∈ [0x8000, 0xFFFF], 0x8000 ≤ a ∧ a < 0x10000) ∧ (∀ a ∈ [0x4000, 0x7FFF], IsIo a) ∧
      ∀ a ∈ [0, 5, 8, 0x3FFF], a < 0x4000 ∧ a ≠ 6 ∧ a ≠ 7 := by decide +kernel

/-- The same regions, and a byte of RAM other than the written one. -/
theorem witness_WriteByteMap :
    0x10000 ≤ 0x10000 ∧ (∀ a ∈ [0x8000, 0xFFFF], 0x8000 ≤ a ∧ a < 0x10000) ∧ (∀ a ∈ [0x4000, 0x7FFF], IsIo a) ∧
      ∀ a ∈ [0, 5, 8, 0x3FFF], (a < 0x4000 ∧ a ≠ 6 ∧ a ≠ 7) ∧ 9 ≠ a := by decide +kernel

/-- Bytes that a counter of Indirect, the pair at 4, and a Flow write leave. -/
theorem witness_CarryingIncrement_CarryingDecrement_FlowWriteEffects :
    ∀ x ∈ [0, 1, 6], (x ≠ 4 ∧ x ≠ 4 + 1) ∧ (x < 2 ∨ 5 < x) := by decide +kernel

theorem witness_LittleEndian :
    (([8, 0x3FFE] : List Word).all fun a => decide (8 ≤ a.toNat ∧ a.toNat + 1 < 0x4000)) = true := by decide +kernel

/-! ### Witnesses: instructions -/

/-- The effective address of a store (R71). -/
def storeEa (s : State) (data : Chunk) : Nat := (s.storeAddress (finalValue s.A s.n data)).toNat

/-- The effective address of a load (R70). -/
def loadEa (s : State) (data : Chunk) : Nat := (s.loadAddress (finalValue s.A s.n data)).toNat

/-- `wide` without sixteen-wide. -/
def narrow : State := { wide with f16 := false }

theorem witness_PushAMergesByParity :
    ({ busy with n := 0 } : State).n % 2 = 0 ∧ busy.n % 2 = 1 ∧ ({ busy with n := 2 } : State).n % 2 = 0 := by decide +kernel

theorem witness_AMovDAssemblesLiteral : State.reset.n = 0 ∧ busy.n = 1 ∧ 2 ≤ (pushed wide 0x48).n := by decide +kernel

/-- Narrow at the ends of RAM and ROM; sixteen-wide at 0x3FFE, 0x8000 and 0xFFFF, and at Indirect's 0x0FA5. -/
theorem witness_AsMovDLoadsCoreMemory :
    NotIo (loadEa (pushed narrow 0x0FF) 0x3F) ∧ NotIo (loadEa (pushed narrow 0x200) 0) ∧
      (([(0x0FF, 0x3E), (0x200, 0), (0x3FF, 0x3F)] : List (BitVec 10 × Chunk)).all fun p =>
        let s := pushed wide p.1
        s.f16 && decide (NotIo (loadEa s p.2) ∧ NotIo (loadEa s p.2 + 1))) = true ∧
      NotIo (loadEa { setPair wide 4 0x0FA5 with fli := true } 0) := by decide +kernel

theorem witness_AsMovDLoadsFromHost :
    (([(0x100, 0), (0x1FF, 0x3F)] : List (BitVec 10 × Chunk)).all fun p =>
      let s := pushed narrow p.1
      !s.f16 && decide (IsIo (loadEa s p.2))) = true ∧
      (([(0x100, 0), (0x1FF, 0x3E)] : List (BitVec 10 × Chunk)).all fun p =>
        let s := pushed wide p.1
        s.f16 && decide (IsIo (loadEa s p.2) ∧ IsIo (loadEa s p.2 + 1))) = true ∧
      ((pushed wide 0x0FF).f16 = true ∧ loadEa (pushed wide 0x0FF) 0x3F = 0x3FFF) ∧
      ((pushed wide 0x1FF).f16 = true ∧ loadEa (pushed wide 0x1FF) 0x3F = 0x7FFF) := by decide +kernel

/-- A store to Flow and one that is not; `fli` armed; a skipped store. -/
theorem witness_DMovAsFrame :
    (7 ∈ wide.storedAddresses 6 ∧ 8 ∉ wide.storedAddresses 6) ∧ 7 ∉ wide.storedAddresses 9 ∧ busy.fli = true ∧
      busy.storedAddresses 0 = [] := by decide +kernel

theorem witness_DMovAsStoresPlainRam :
    (narrow.storeSkipped = false ∧ 8 ≤ storeEa narrow 8 ∧ storeEa narrow 8 < 0x4000) ∧
      (let s := pushed narrow 0x0FF;
        s.storeSkipped = false ∧ storeEa s 0x3F = 0x3FFF ∧ s.f16 = false) ∧
      let s := pushed wide 0x0FF
      s.storeSkipped = false ∧ 8 ≤ storeEa s 0x3E ∧ storeEa s 0x3E < 0x4000 ∧ s.f16 = true ∧
        storeEa s 0x3E + 1 < 0x4000 := by decide +kernel

/-- V52a. -/
theorem witness_InhibitedStoreOnlyClearsFlags :
    ({ wide with finh := true } : State).finh = true ∧ ({ wide with finh := true } : State).loop = 0 := by decide +kernel

theorem witness_StoreToRomIsDropped :
    ([narrow, wide].all fun s => ([(0x200, 0), (0x3FF, 0x3F)] : List (BitVec 10 × Chunk)).all fun p =>
      !(pushed s p.1).storeSkipped && decide (0x8000 ≤ storeEa (pushed s p.1) p.2)) = true := by decide +kernel

theorem witness_StoreToHost :
    (([(0x100, 0), (0x1FF, 0x3F)] : List (BitVec 10 × Chunk)).all fun p =>
      let s := pushed narrow p.1
      !s.storeSkipped && !s.f16 && decide (IsIo (storeEa s p.2))) = true ∧
      (([(0x100, 0), (0x1FF, 0x3E)] : List (BitVec 10 × Chunk)).all fun p =>
        let s := pushed wide p.1
        !s.storeSkipped && s.f16 && decide (IsIo (storeEa s p.2) ∧ IsIo (storeEa s p.2 + 1))) = true ∧
      ((pushed wide 0x0FF).storeSkipped = false ∧ storeEa (pushed wide 0x0FF) 0x3F = 0x3FFF) ∧
      ((pushed wide 0x1FF).storeSkipped = false ∧ storeEa (pushed wide 0x1FF) 0x3F = 0x7FFF) := by decide +kernel

/-- Narrow and sixteen-wide, at 0x0 and at 0x1. -/
theorem witness_StoreToIpTransfersControl :
    ([narrow, wide].all fun s => !s.storeSkipped && decide (storeEa s 0 = 0 ∧ storeEa s 1 = 1)) = true := by decide +kernel

theorem witness_StoredByteIsFetchedNext :
    (([(0, 8), (0x0FF, 0x3F)] : List (BitVec 10 × Chunk)).all fun p =>
      let s := { pushed narrow p.1 with ram := Memory.resetRam (p.1 ++ p.2) }
      !s.storeSkipped && !s.f16 &&
        decide (8 ≤ storeEa s p.2 ∧ storeEa s p.2 < 0x4000 ∧ s.pc.toNat = storeEa s p.2)) = true := by decide +kernel

/-- The three forms that write Flow. -/
theorem witness_FlowStoreArmsNextInstruction :
    (narrow.storeSkipped = false ∧ storeEa narrow 7 = 7) ∧ (wide.storeSkipped = false ∧ storeEa wide 7 = 7) ∧
      (wide.storeSkipped = false ∧ storeEa wide 6 = 6 ∧ wide.f16 = true) := by decide +kernel

theorem witness_FlagConsumptionTable :
    (∃ t, exec (.pushA 1) busy = .next t) ∧ (∃ t, exec (.aMovD 1) busy = .next t) ∧
      (∃ t, exec (.asMovD 1) busy = .next t) ∧
      ∃ t, exec (.dMovAs 9) { busy with finh := false } = .next t ∧
        7 ∉ ({ busy with finh := false } : State).storedAddresses 9 :=
  ⟨⟨_, rfl⟩, ⟨_, rfl⟩, ⟨_, rfl⟩, _, rfl, by decide⟩

theorem witness_OnlyFlowWritesArm :
    ∃ t, exec (.dMovAs 9) { busy with finh := false } = .next t ∧
      ¬ 7 ∈ ({ busy with finh := false } : State).storedAddresses 9 := ⟨_, rfl, by decide⟩

/-- A load under `fli` and `f16`, a store under `fsi`, `finh` and `f16`. -/
theorem witness_DisciplinedMovesClearEveryFlag :
    (readsEveryArmedFlag (.asMovD 1) { wide with fli := true } ∧
      ∃ t, exec (.asMovD 1) { wide with fli := true } = .next t) ∧
      readsEveryArmedFlag (.dMovAs 1) { setPair wide 2 1 with fsi := true, finh := true } ∧
      (∃ t, exec (.dMovAs 1) { setPair wide 2 1 with fsi := true, finh := true } = .next t) ∧
      ¬ writesFlow (.dMovAs 1) { setPair wide 2 1 with fsi := true, finh := true } :=
  ⟨⟨⟨rfl, rfl⟩, _, rfl⟩, rfl, ⟨_, rfl⟩, by unfold writesFlow; decide⟩

/-- The host stops after the first of two steps, where `fw` is set. -/
theorem witness_FrameStopsAtFrameWait :
    let s := { withRom [0xC7, 0x45] with D := 0x80 }
    s.fw = false ∧ Runs 0 s s ∧ after (runFrame 2 s) (fun t => t.fw && t.pc == 0x8001) = true :=
  ⟨rfl, rfl, by decide +kernel⟩

/-! ### Witnesses: assembler -/

/-- Two labels are missing; the first is named, and nothing is refused. -/
theorem witness_UnresolvedLabelIsFirstUndefined :
    let ls : List Leaf :=
      [.descriptor .aMovD (.labelRef "A"), .descriptor .dMovAs (.labelRef "X"), .atLabel "A",
        .descriptor .aMovD (.labelRef "Y")]
    let tree := Tree.seq (ls.map Tree.leaf)
    assemble Config.default tree = .error (.unresolvedLabel "X") ∧
      (∀ r, assemble Config.default tree ≠ .error (.refused r)) ∧
      ((Leaf.references tree.flatten).find? fun name => !(Leaf.labels tree.flatten).contains name) = some "X" := by
  intro ls tree
  have h : assemble Config.default tree = .error (.unresolvedLabel "X") := by decide +kernel
  exact ⟨h, fun r e => by rw [h] at e; injection e with e; injection e, by decide +kernel⟩

theorem witness_DuplicateLabelRefused :
    ¬ (Leaf.labels (Tree.seq [.leaf (.atLabel "A"), .leaf (.atLabel "B"), .leaf (.atLabel "A")]).flatten).Nodup := by decide +kernel

theorem witness_ImageFitsAddressSpace :
    ∃ image, assemble Config.default (.seq [.leaf (.atOrigin 0xFFFF), .leaf (.rawData [1])]) = .ok image :=
  ⟨[(0xFFFF, 1)], by decide⟩

/-- Two trees of one flattening. -/
theorem witness_NestingCarriesNoMeaning :
    (Tree.seq [.leaf (.rawData [1]), .seq []]).flatten = (Tree.seq [.seq [.leaf (.rawData [1])]]).flatten := rfl

theorem witness_EmittedBytesStand : 0xFFFE ≤ 0xFFFF ∧ 0xFFFF < 0xFFFE + ([1, 2] : List Byte).length := by decide +kernel

theorem witness_LastInstructionReachesRom :
    let ls : List Leaf := [.atOrigin 0x8000, .rawData [9]]
    pass3 Config.default [("L", 0x8005)] ls 0 [] = .ok (0x8001, [(0x8000, 9)]) ∧
      Operand.resolve [("L", 0x8005)] (.labelRef "L") = .ok 0x8005 ∧
      pass3 Config.default [("L", 0x8005)] (ls ++ [.descriptor .aMovD (.labelRef "L")]) 0 [] =
        .ok (0x8004, [(0x8000, 9), (0x8002, 8), (0x8003, 0x45)]) := by decide +kernel

/-- 5.5: backward references; pass 3 meets `C` at 0x0103. -/
theorem witness_BackwardReferencesNeverDrift :
    let ls : List Leaf :=
      [.atOrigin 0x100, .atLabel "B", .rawData [0x11], .descriptor .aMovD (.labelRef "B"), .atLabel "C",
        .descriptor .aMovD (.labelRef "C")]
    (Leaf.labels ls).Nodup ∧ Leaf.backwardOnly [] ls ∧
      pass2 ls 0 (pass1 0xEAEA ls []) = .ok (0x105, [("B", 0x100), ("C", 0x103)]) ∧ ls[4]? = some (.atLabel "C") :=
  ⟨by decide +kernel, by simp [Leaf.backwardOnly], by decide +kernel, rfl⟩

theorem witness_DefaultDriftRanges :
    (([0x0000, 0x07FF] : List Word).all fun t => decide (t.toNat ≤ 0x7FF)) = true ∧
      (([0xF800, 0xFFFF] : List Word).all fun t => decide (0xF800 ≤ t.toNat)) = true ∧
      (([0x0800, 0xF7FF] : List Word).all fun t => decide (0x800 ≤ t.toNat ∧ t.toNat ≤ 0xF7FF)) = true := by decide +kernel

/-- The sentinel when spaced, the address when emitted, at the end of the image; and 5.4, where two drifts add up before `L`
and an origin ends them before `K`. -/
theorem witness_ReferenceSpacedThenEmitted :
    (LabelTable.find [("L", 0xEAEA)] "L" = some 0xEAEA ∧ LabelTable.find [("L", 0xF803)] "L" = some 0xF803 ∧
      0xFFFD + chunkLength 0xEAEA ≤ 0x10000 ∧ 0xFFFD + chunkLength 0xF803 ≤ 0x10000) ∧
      let ls : List Leaf :=
        [.atOrigin 0x100, .descriptor .aMovD (.labelRef "L"), .descriptor .aMovD (.labelRef "L"), .atLabel "L",
          .rawData [0x99], .atOrigin 0x200, .atLabel "K", .rawData [0x77]]
      let t : LabelTable := [("L", 0x106), ("K", 0x200)]
      (Leaf.labels ls).Nodup ∧ pass2 ls 0 (pass1 0xEAEA ls []) = .ok (0x201, t) ∧ chunkLength 0xEAEA = 3 ∧
        ls[3]? = some (.atLabel "L") ∧ Leaf.driftOver Config.default t [] 0 (ls.take 3) = 2 ∧
        pass3 Config.default t (ls.take 3) 0 [] = .ok (0x104, [(0x100, 4), (0x101, 0x46), (0x102, 4), (0x103, 0x46)]) ∧
        ls[6]? = some (.atLabel "K") ∧ Leaf.driftOver Config.default t [] 0 (ls.take 6) = 0 := by decide +kernel

end Sys2Proof.Machine
end

