-- ==== Sys2Proof/Proofs/Builder.lean ====
section
/-! PROOF. The packing of one instruction byte (R57) and the bytes the Instruction Builder emits (R58). -/

namespace Sys2Proof.Proofs

/-! ### The packing of one byte -/

/-- The shift and the masked OR of R57 never meet: the opcode has the two high bits, the data the six low ones. -/
theorem toNat_assembleOneRawInstruction (opcode : BitVec 2) (data : Nat) :
    (assembleOneRawInstruction opcode data).toNat = opcode.toNat * 64 + data % 64 := by
  have hhigh : (opcode.setWidth 8 <<< 6).toNat = opcode.toNat <<< 6 := by
    simp only [BitVec.toNat_shiftLeft, BitVec.toNat_setWidth, Nat.shiftLeft_eq]
    omega
  have hlow : (BitVec.ofNat 8 data &&& 0x3F).toNat = data % 2 ^ 6 := by
    have hmask : (0x3F : Byte).toNat = 2 ^ 6 - 1 := rfl
    rw [BitVec.toNat_and, hmask, Nat.and_two_pow_sub_one_eq_mod, BitVec.toNat_ofNat]
    omega
  calc (assembleOneRawInstruction opcode data).toNat
      = opcode.toNat <<< 6 ||| data % 2 ^ 6 := by rw [assembleOneRawInstruction, BitVec.toNat_or, hhigh, hlow]
    _ = opcode.toNat <<< 6 + data % 2 ^ 6 := (Nat.shiftLeft_add_eq_or_of_lt (Nat.mod_lt _ (by decide)) _).symm
    _ = opcode.toNat * 64 + data % 64 := by rw [Nat.shiftLeft_eq]

/-- Settles O4: the two fields of the byte do not overlap, so their OR is their sum. -/
theorem rawInstructionPacking : Obligations.RawInstructionPacking :=
  toNat_assembleOneRawInstruction

/-! ### The chunk list and its bytes -/

/-- A chunk that another one follows becomes a `PushA` byte. -/
theorem buildRawInstructions_cons (cfg : Config) (opcode : BitVec 2) (c : Chunk) {rest : List Chunk} (h : rest ≠ []) :
    buildRawInstructions cfg opcode (c :: rest) =
      assembleOneRawInstruction cfg.opcPushA c.toNat :: buildRawInstructions cfg opcode rest := by
  cases rest with
  | nil => exact absurd rfl h
  | cons c' rest => rfl

/-- Every chunk but the last becomes a `PushA` byte, in list order. -/
theorem buildRawInstructions_concat (cfg : Config) (opcode : BitVec 2) (pushes : List Chunk) (last : Chunk) :
    buildRawInstructions cfg opcode (pushes ++ [last]) =
      pushes.map (fun c => assembleOneRawInstruction cfg.opcPushA c.toNat) ++
        [assembleOneRawInstruction opcode last.toNat] := by
  induction pushes with
  | nil => rfl
  | cons c pushes ih =>
    rw [List.cons_append, buildRawInstructions_cons cfg opcode c (by simp), ih, List.map_cons, List.cons_append]

/-- The three shapes of a chunk list (R54, R55). The literal chunks 0x3F and 0x00 are bits 11:6 too: their branches are
taken only where those bits have that value. -/
theorem chunks_shape (v : Word) :
    chunks v = [v.extractLsb' 0 6] ∨ chunks v = [v.extractLsb' 6 6, v.extractLsb' 0 6] ∨
      chunks v = [v.extractLsb' 6 6, (v.extractLsb' 12 4).setWidth 6, v.extractLsb' 0 6] := by
  simp only [chunks]
  split_ifs with _ _ hones _ _ hzeros _
  · exact .inl rfl
  · obtain ⟨-, hmid, -⟩ := hones
    exact .inr (.inl (by rw [hmid]))
  · exact .inr (.inl rfl)
  · exact .inr (.inr rfl)
  · exact .inl rfl
  · obtain ⟨-, hmid, -⟩ := hzeros
    exact .inr (.inl (by rw [hmid]))
  · exact .inr (.inl rfl)
  · exact .inr (.inr rfl)

theorem toNat_lowChunk (v : Word) : (v.extractLsb' 0 6).toNat = v.toNat % 64 := by
  simp [BitVec.extractLsb'_toNat]

theorem toNat_midChunk (v : Word) : (v.extractLsb' 6 6).toNat = v.toNat / 64 % 64 := by
  simp [BitVec.extractLsb'_toNat, Nat.shiftRight_eq_div_pow]

/-- The top chunk has four bits of the value and needs no reduction: the value has none above them. -/
theorem toNat_topChunk (v : Word) : ((v.extractLsb' 12 4).setWidth 6).toNat = v.toNat / 4096 := by
  rw [BitVec.toNat_setWidth, BitVec.extractLsb'_toNat, Nat.shiftRight_eq_div_pow]
  omega

/-- Settles O8: the list equation by induction on the pushes, the bytes of a value by the three shapes of its chunk list;
the length tells the shapes apart. -/
theorem builderPushesThenOpcode : Obligations.BuilderPushesThenOpcode := by
  refine ⟨buildRawInstructions_concat, fun cfg op v => ⟨rfl, length_encodeValue cfg op v, ?_⟩⟩
  rcases chunks_shape v with hone | htwo | hthree
  · simp only [encodeValue, hone, buildRawInstructions, toNat_lowChunk]
    simp
  · simp only [encodeValue, htwo, buildRawInstructions, toNat_lowChunk, toNat_midChunk]
    simp
  · simp only [encodeValue, hthree, buildRawInstructions, toNat_lowChunk, toNat_midChunk, toNat_topChunk]
    simp

end Sys2Proof.Proofs
end

