-- ==== Sys2Proof/Proofs/Flattening.lean ====
section
/-! PROOF. Flattening is concatenation in order (R84). -/

namespace Sys2Proof.Proofs

/-! ### Lists of trees -/

theorem flattenAll_eq_flatten_map (ts : List Tree) : Tree.flattenAll ts = (ts.map Tree.flatten).flatten := by
  induction ts with
  | nil => rw [Tree.flattenAll, List.map_nil, List.flatten_nil]
  | cons t ts ih => rw [Tree.flattenAll, ih, List.map_cons, List.flatten_cons]

@[simp] theorem flatten_leaf (l : Leaf) : (Tree.leaf l).flatten = [l] := by rw [Tree.flatten]

theorem flatten_seq (ts : List Tree) : (Tree.seq ts).flatten = (ts.map Tree.flatten).flatten := by
  rw [Tree.flatten, flattenAll_eq_flatten_map]

/-- The members of a sequence contribute side by side. -/
theorem flatten_seq_append (ts us : List Tree) :
    (Tree.seq (ts ++ us)).flatten = (Tree.seq ts).flatten ++ (Tree.seq us).flatten := by
  simp only [flatten_seq, List.map_append, List.flatten_append]

theorem flatten_seq_singleton (t : Tree) : (Tree.seq [t]).flatten = t.flatten := by
  simp only [flatten_seq, List.map_cons, List.map_nil, List.flatten_singleton]

/-- Settles O51: a sequence in brackets of its own adds the same leaves at the same place, and the assembler reads a tree
only through its flattening. -/
theorem nestingCarriesNoMeaning : Obligations.NestingCarriesNoMeaning := by
  refine ⟨flatten_leaf, flatten_seq, fun ts us vs => ?splice, fun cfg t u h => ?assembled⟩
  case splice => simp only [flatten_seq_append, flatten_seq_singleton]
  case assembled => rw [assemble, assemble, h]

end Sys2Proof.Proofs
end

