-- ==== Sys2Proof/Proofs/UnresolvedLabel.lean ====
section
/-! PROOF. Where the assembler's one error comes from (R89). During pass 2 the set of names in the label table never changes:
pass 1 enters every label of the program, pass 2 only overwrites addresses. So pass 2 stops exactly at the first reference
to a label no leaf defines, and pass 3 never stops for one. -/

namespace Sys2Proof.Proofs

/-! ### The names a label table holds -/

/-- The table has an address for exactly these names. -/
def TableDefines (t : LabelTable) (names : List String) : Prop :=
  ∀ name, (t.find name).isSome = names.contains name

/-- A new address for a name the table holds adds no name. -/
theorem TableDefines.put {t : LabelTable} {names : List String} {name : String} (ht : TableDefines t names)
    (hname : name ∈ names) (v : Word) : TableDefines (t.put name v) names := by
  intro x
  rw [LabelTable.find_put]
  by_cases hx : name = x
  · subst hx
    simp [hname]
  · rw [if_neg hx, ht x]

/-- Pass 1 adds the labels of the list, and only those. -/
theorem isSome_find_pass1 (sentinel : Word) (ls : List Leaf) (t : LabelTable) (x : String) :
    ((pass1 sentinel ls t).find x).isSome = ((Leaf.labels ls).contains x || (t.find x).isSome) := by
  induction ls generalizing t with
  | nil => simp [pass1, Leaf.labels]
  | cons l ls ih =>
    cases l with
    | rawData bytes => exact ih t
    | atOrigin a => exact ih t
    | descriptor op operand => exact ih t
    | atLabel name =>
      rw [pass1, ih, Leaf.labels, LabelTable.find_put, List.contains_cons]
      by_cases hx : name = x
      · simp [hx]
      · simp [hx, beq_false_of_ne (Ne.symm hx)]

theorem tableDefines_pass1 (sentinel : Word) (ls : List Leaf) :
    TableDefines (pass1 sentinel ls []) (Leaf.labels ls) := by
  intro x
  rw [isSome_find_pass1, LabelTable.find, Option.isSome_none, Bool.or_false]

/-! ### The first reference outside a list of names -/

/-- The first reference, in list order, to a name that is not one of these. -/
def firstUndefined (names : List String) (ls : List Leaf) : Option String :=
  (Leaf.references ls).find? fun name => !names.contains name

theorem labels_cons (l : Leaf) (ls : List Leaf) : Leaf.labels (l :: ls) = Leaf.labels [l] ++ Leaf.labels ls := by
  cases l <;> rfl

theorem references_cons (l : Leaf) (ls : List Leaf) :
    Leaf.references (l :: ls) = Leaf.references [l] ++ Leaf.references ls := by
  cases l with
  | rawData bytes => rfl
  | atOrigin a => rfl
  | atLabel name => rfl
  | descriptor op operand => cases operand <;> rfl

/-- The first leaf is looked at first. -/
theorem firstUndefined_cons (names : List String) (l : Leaf) (ls : List Leaf) :
    firstUndefined names (l :: ls) = (firstUndefined names [l]).or (firstUndefined names ls) := by
  rw [firstUndefined, references_cons, List.find?_append, firstUndefined, firstUndefined]

/-- A reference is undefined exactly when the table has no address for it. -/
theorem firstUndefined_labelRef {t : LabelTable} {names : List String} (ht : TableDefines t names) (op : MoveOp)
    (name : String) :
    firstUndefined names [.descriptor op (.labelRef name)] = if (t.find name).isSome then none else some name := by
  rw [firstUndefined, Leaf.references, Leaf.references, List.find?_singleton, ← ht name]
  cases (t.find name).isSome <;> rfl

/-! ### Operand resolution -/

theorem firstUndefined_of_resolve_ok {t : LabelTable} {names : List String} {x : Operand} {v : Word}
    (ht : TableDefines t names) (op : MoveOp) (h : x.resolve t = .ok v) :
    firstUndefined names [.descriptor op x] = none := by
  cases x with
  | lit n => rfl
  | labelRef name =>
    have hfind : t.find name = some v := resolve_eq_ok.mp h
    rw [firstUndefined_labelRef ht, hfind, Option.isSome_some, if_pos rfl]

theorem resolve_eq_unresolved {t : LabelTable} {x : Operand} {name : String} :
    x.resolve t = .error (.unresolvedLabel name) ↔ x = .labelRef name ∧ t.find name = none := by
  cases x with
  | lit n => simp [Operand.resolve]
  | labelRef y =>
    by_cases hy : y = name
    · subst hy
      cases h : t.find y <;> simp [Operand.resolve, h]
    · cases h : t.find y <;> simp [Operand.resolve, h, hy]

theorem firstUndefined_of_resolve_unresolved {t : LabelTable} {names : List String} {x : Operand} {name : String}
    (ht : TableDefines t names) (op : MoveOp) (h : x.resolve t = .error (.unresolvedLabel name)) :
    firstUndefined names [.descriptor op x] = some name := by
  obtain ⟨rfl, hfind⟩ := resolve_eq_unresolved.mp h
  rw [firstUndefined_labelRef ht, hfind]
  rfl

/-! ### The two passes at one leaf -/

theorem bind_eq_error {ε α β : Type} {m : Except ε α} {f : α → Except ε β} {e : ε} :
    m >>= f = .error e ↔ m = .error e ∨ ∃ a, m = .ok a ∧ f a = .error e := by
  cases m <;> simp [bind, Except.bind]

theorem bind_eq_ok {ε α β : Type} {m : Except ε α} {f : α → Except ε β} {b : β} :
    m >>= f = .ok b ↔ ∃ a, m = .ok a ∧ f a = .ok b := by
  cases m <;> simp [bind, Except.bind]

theorem advance_ne_unresolved (org len : Nat) (name : String) : advance org len ≠ .error (.unresolvedLabel name) := by
  unfold advance
  split <;> simp

theorem setOrigin_ne_unresolved (a : Int) (name : String) : setOrigin a ≠ .error (.unresolvedLabel name) := by
  unfold setOrigin
  split <;> simp

theorem emitAt_ne_unresolved (org : Nat) (image : Memory) (bytes : List Byte) (name : String) :
    emitAt org image bytes ≠ .error (.unresolvedLabel name) := by
  simp [emitAt, bind_eq_error, advance_ne_unresolved, pure, Except.pure]

/-- Pass 2 meets a missing label only where it resolves the operand of an instruction. -/
theorem spaceLeaf_unresolved {org : Nat} {t : LabelTable} {l : Leaf} {name : String}
    (h : spaceLeaf org t l = .error (.unresolvedLabel name)) :
    ∃ op x, l = .descriptor op x ∧ x.resolve t = .error (.unresolvedLabel name) := by
  cases l with
  | atOrigin a => simp [spaceLeaf, bind_eq_error, setOrigin_ne_unresolved, pure, Except.pure] at h
  | rawData bytes => simp [spaceLeaf, bind_eq_error, advance_ne_unresolved, pure, Except.pure] at h
  | atLabel y =>
    rw [spaceLeaf] at h
    split at h <;> simp at h
  | descriptor op x =>
    simp only [spaceLeaf, bind_eq_error, advance_ne_unresolved, pure, Except.pure, reduceCtorEq, and_false,
      exists_false, or_false] at h
    exact ⟨op, x, rfl, h⟩

/-- So does pass 3: raw data, labels and origins never look at the table. -/
theorem emitLeaf_unresolved {cfg : Config} {t : LabelTable} {org : Nat} {image : Memory} {l : Leaf} {name : String}
    (h : emitLeaf cfg t org image l = .error (.unresolvedLabel name)) :
    ∃ op x, l = .descriptor op x ∧ x.resolve t = .error (.unresolvedLabel name) := by
  cases l with
  | atOrigin a => simp [emitLeaf, bind_eq_error, setOrigin_ne_unresolved, pure, Except.pure] at h
  | rawData bytes => exact absurd h (emitAt_ne_unresolved _ _ _ _)
  | atLabel y => simp [emitLeaf] at h
  | descriptor op x =>
    simp only [emitLeaf, bind_eq_error, emitAt_ne_unresolved, and_false, exists_false, or_false] at h
    exact ⟨op, x, rfl, h⟩

/-- Where pass 2 goes on, the leaf referred to no undefined label, and the table still holds the same names. -/
theorem spaceLeaf_ok {names : List String} {org o : Nat} {t u : LabelTable} {l : Leaf} (ht : TableDefines t names)
    (hl : ∀ name ∈ Leaf.labels [l], name ∈ names) (h : spaceLeaf org t l = .ok (o, u)) :
    firstUndefined names [l] = none ∧ TableDefines u names := by
  rw [spaceLeaf_eq_ok] at h
  cases l with
  | atOrigin a => exact ⟨rfl, h.2 ▸ ht⟩
  | rawData bytes => exact ⟨rfl, h.2 ▸ ht⟩
  | atLabel name =>
    obtain ⟨-, -, rfl⟩ := h
    exact ⟨rfl, ht.put (hl name (List.mem_singleton_self name)) _⟩
  | descriptor op x =>
    obtain ⟨v, hv, -, rfl⟩ := h
    exact ⟨firstUndefined_of_resolve_ok ht op hv, ht⟩

/-! ### The two passes over a list -/

theorem pass2_cons_eq_error {l : Leaf} {ls : List Leaf} {org : Nat} {t : LabelTable} {e : AsmStop} :
    pass2 (l :: ls) org t = .error e ↔
      spaceLeaf org t l = .error e ∨ ∃ o u, spaceLeaf org t l = .ok (o, u) ∧ pass2 ls o u = .error e := by
  rw [pass2, bind_eq_error, Prod.exists]

theorem pass3_cons_eq_error {cfg : Config} {t : LabelTable} {l : Leaf} {ls : List Leaf} {org : Nat} {image : Memory}
    {e : AsmStop} :
    pass3 cfg t (l :: ls) org image = .error e ↔
      emitLeaf cfg t org image l = .error e ∨
        ∃ o im, emitLeaf cfg t org image l = .ok (o, im) ∧ pass3 cfg t ls o im = .error e := by
  rw [pass3, bind_eq_error, Prod.exists]

theorem pass2_ok {names : List String} {ls : List Leaf} {org o : Nat} {t u : LabelTable} (ht : TableDefines t names)
    (hls : ∀ name ∈ Leaf.labels ls, name ∈ names) (h : pass2 ls org t = .ok (o, u)) :
    firstUndefined names ls = none ∧ TableDefines u names := by
  induction ls generalizing org t with
  | nil =>
    cases h
    exact ⟨rfl, ht⟩
  | cons l ls ih =>
    simp only [labels_cons l ls, List.forall_mem_append] at hls
    obtain ⟨hl, hrest⟩ := hls
    obtain ⟨o', u', hleaf, hpass⟩ := pass2_cons_eq_ok.mp h
    obtain ⟨hnone, ht'⟩ := spaceLeaf_ok ht hl hleaf
    rw [firstUndefined_cons, hnone, Option.none_or]
    exact ih ht' hrest hpass

/-- The name pass 2 stops at is the first undefined one: it went past every leaf before. -/
theorem firstUndefined_of_pass2_unresolved {names : List String} {ls : List Leaf} {org : Nat} {t : LabelTable}
    {name : String} (ht : TableDefines t names) (hls : ∀ x ∈ Leaf.labels ls, x ∈ names)
    (h : pass2 ls org t = .error (.unresolvedLabel name)) : firstUndefined names ls = some name := by
  induction ls generalizing org t with
  | nil => cases h
  | cons l ls ih =>
    simp only [labels_cons l ls, List.forall_mem_append] at hls
    obtain ⟨hl, hrest⟩ := hls
    rw [firstUndefined_cons]
    rcases pass2_cons_eq_error.mp h with hstop | ⟨o, u, hleaf, hpass⟩
    · obtain ⟨op, x, rfl, hx⟩ := spaceLeaf_unresolved hstop
      rw [firstUndefined_of_resolve_unresolved ht op hx, Option.some_or]
    · obtain ⟨hnone, ht'⟩ := spaceLeaf_ok ht hl hleaf
      rw [hnone, Option.none_or]
      exact ih ht' hrest hpass

/-- Without an undefined reference, pass 3 resolves every operand. -/
theorem pass3_ne_unresolved {cfg : Config} {names : List String} {t : LabelTable} {ls : List Leaf} {org : Nat}
    {image : Memory} (name : String) (ht : TableDefines t names) (hnone : firstUndefined names ls = none) :
    pass3 cfg t ls org image ≠ .error (.unresolvedLabel name) := by
  induction ls generalizing org image with
  | nil => simp
  | cons l ls ih =>
    rw [firstUndefined_cons, Option.or_eq_none_iff] at hnone
    obtain ⟨hl, hrest⟩ := hnone
    intro h
    rcases pass3_cons_eq_error.mp h with hstop | ⟨o, im, -, hpass⟩
    · obtain ⟨op, x, rfl, hx⟩ := emitLeaf_unresolved hstop
      simp [firstUndefined_of_resolve_unresolved ht op hx] at hl
    · exact ih hrest hpass

/-! ### The assembler -/

theorem assembleLeaves_ok {cfg : Config} {ls : List Leaf} {image : Memory} (h : assembleLeaves cfg ls = .ok image) :
    ∃ o t, pass2 ls 0 (pass1 cfg.labelSentinel ls []) = .ok (o, t) := by
  rw [assembleLeaves] at h
  split at h
  · cases h
  · obtain ⟨⟨o, t⟩, hpass, -⟩ := bind_eq_ok.mp h
    exact ⟨o, t, hpass⟩

theorem assembleLeaves_unresolved {cfg : Config} {ls : List Leaf} {name : String}
    (h : assembleLeaves cfg ls = .error (.unresolvedLabel name)) :
    pass2 ls 0 (pass1 cfg.labelSentinel ls []) = .error (.unresolvedLabel name) ∨
      ∃ o t, pass2 ls 0 (pass1 cfg.labelSentinel ls []) = .ok (o, t) ∧
        pass3 cfg t ls 0 [] = .error (.unresolvedLabel name) := by
  rw [assembleLeaves] at h
  split at h
  · cases h
  · rcases bind_eq_error.mp h with hstop | ⟨⟨o, t⟩, hpass2, hrest⟩
    · exact .inl hstop
    · rcases bind_eq_error.mp hrest with hstop | ⟨_, _, hpure⟩
      · exact .inr ⟨o, t, hpass2, hstop⟩
      · cases hpure

theorem firstUndefined_of_assembleLeaves_ok {cfg : Config} {ls : List Leaf} {image : Memory}
    (h : assembleLeaves cfg ls = .ok image) : firstUndefined (Leaf.labels ls) ls = none := by
  obtain ⟨o, t, hpass⟩ := assembleLeaves_ok h
  exact (pass2_ok (tableDefines_pass1 _ ls) (fun _ hx => hx) hpass).1

/-- Pass 3 is never the pass that stops: behind a pass 2 that went through, no reference is undefined. -/
theorem firstUndefined_of_assembleLeaves_unresolved {cfg : Config} {ls : List Leaf} {name : String}
    (h : assembleLeaves cfg ls = .error (.unresolvedLabel name)) :
    firstUndefined (Leaf.labels ls) ls = some name := by
  have ht := tableDefines_pass1 cfg.labelSentinel ls
  rcases assembleLeaves_unresolved h with hpass2 | ⟨o, t, hpass2, hpass3⟩
  · exact firstUndefined_of_pass2_unresolved ht (fun _ hx => hx) hpass2
  · obtain ⟨hnone, ht'⟩ := pass2_ok ht (fun _ hx => hx) hpass2
    exact absurd hpass3 (pass3_ne_unresolved name ht' hnone)

/-- Settles O52: an image and an unresolved label each tell what the first undefined reference is, and a program that is not
refused ends in one of the two. -/
theorem unresolvedLabelIsFirstUndefined : Obligations.UnresolvedLabelIsFirstUndefined := by
  intro cfg tree hrefused
  change (∀ name, _ ↔ firstUndefined (Leaf.labels tree.flatten) tree.flatten = some name) ∧
    (firstUndefined (Leaf.labels tree.flatten) tree.flatten = none → _)
  cases hresult : assemble cfg tree with
  | ok image =>
    have hnone := firstUndefined_of_assembleLeaves_ok hresult
    simp [hnone]
  | error e =>
    cases e with
    | refused r => exact absurd hresult (hrefused r)
    | unresolvedLabel y =>
      have hsome := firstUndefined_of_assembleLeaves_unresolved hresult
      simp [hsome]

end Sys2Proof.Proofs
end

