-- ==== Sys2Proof/Proofs/Exceptions.lean ====
section
/-! PROOF. No instruction, address or encoding stops a step (spec/60_exceptions.md R94). -/

namespace Sys2Proof.Proofs

open Sys2Proof.Machine

/-- Every instruction completes from every state: where one warns (too many pushes, a store to ROM, an access past 0xFFFF),
it goes on all the same (R95). -/
theorem exec_completes (i : Instr) (s : State) : ∃ t, exec i s = .next t := by
  cases i with
  | pushA data => exact ⟨_, exec_pushA s data⟩
  | aMovD data => exact ⟨_, exec_aMovD s data⟩
  | asMovD data => exact ⟨_, exec_asMovD s data⟩
  | dMovAs data => exact ⟨_, exec_dMovAs s data⟩

/-- Settles O16: every byte decodes to an instruction (R61), and every instruction completes from the fetched state. -/
theorem stepAlwaysCompletes : Obligations.StepAlwaysCompletes := by
  intro s
  rw [step_eq]
  exact exec_completes (decodeByte s.config s.fetch.1) s.fetch.2

end Sys2Proof.Proofs
end

section
/-! PROOF. The decoder against the encoder (R50 to R52, R57), and the chunk lists of a value (R53 to R56). -/

namespace Sys2Proof.Proofs

/-! ### Bytes and instructions -/

/-- Every instruction can be read off its byte: the opcode number and the data (R50). -/
theorem byteFields (i : Instr) : Laws.ByteFields.Statement i := fun _ => Laws.fields_of_assembled _ _

/-- Under distinct numbers the first opcode test of the decoder that succeeds is that of the instruction encoded. -/
theorem decodeByte_encodeByte {cfg : Config} (h : cfg.OpcodesDistinct) (i : Instr) :
    decodeByte cfg (encodeByte cfg i) = i := by
  obtain ⟨hop, hdata⟩ := byteFields i cfg
  simp only [Config.OpcodesDistinct, Config.opcodes, List.nodup_cons, List.mem_cons, List.not_mem_nil, or_false,
    not_or] at h
  obtain ⟨⟨hpa, hps, hpd⟩, ⟨has, had⟩, hsd, -⟩ := h
  rw [decodeByte, hop, hdata]
  cases i with
  | pushA data => simp [Instr.opcode, Instr.data]
  | aMovD data => simp [Instr.opcode, Instr.data, Ne.symm hpa]
  | asMovD data => simp [Instr.opcode, Instr.data, Ne.symm hps, Ne.symm has]
  | dMovAs data => simp [Instr.opcode, Instr.data, Ne.symm hpd, Ne.symm had, Ne.symm hsd]

/-- Settles O1: an instruction is one byte, and the decoder reads that byte back. -/
theorem decodeOfEncode : Obligations.DecodeOfEncode := by
  intro cfg i rest h _
  rw [encode, List.singleton_append, decode, decodeByte_encodeByte h]

/-- A two-bit number that is none of three different ones is the fourth: four distinct numbers fill the space (R51). -/
theorem eq_fourth_of_ne {a b c d x : BitVec 2} (h : [a, b, c, d].Nodup) (ha : x ≠ a) (hb : x ≠ b) (hc : x ≠ c) :
    x = d := by
  revert a b c d x
  decide +kernel

/-- The decoded instruction carries the opcode number of the byte. -/
theorem opcode_decodeByte {cfg : Config} (h : cfg.OpcodesDistinct) (b : Byte) :
    (decodeByte cfg b).opcode cfg = opField b := by
  unfold decodeByte
  split_ifs with hp ha hs
  · exact hp.symm
  · exact ha.symm
  · exact hs.symm
  · exact (eq_fourth_of_ne h hp ha hs).symm

/-- The decoded instruction carries the data of the byte. -/
theorem data_decodeByte (cfg : Config) (b : Byte) : (decodeByte cfg b).data = dataField b := by
  unfold decodeByte
  split_ifs <;> rfl

/-- Settles O2: the two fields of a byte, packed again, are the byte. -/
theorem encodeOfDecode : Obligations.EncodeOfDecode := by
  intro cfg b h
  rw [encodeByte, opcode_decodeByte h, data_decodeByte]
  apply BitVec.eq_of_toNat_eq
  have hop : (opField b).toNat = b.toNat / 64 % 4 := by
    simp [opField, BitVec.extractLsb'_toNat, Nat.shiftRight_eq_div_pow]
  have hdata : (dataField b).toNat = b.toNat % 64 := by simp [dataField, BitVec.extractLsb'_toNat]
  have hb := b.isLt
  rw [toNat_assembleOneRawInstruction, hop, hdata]
  omega

/-- Settles O3, by evaluation of the four words. -/
theorem listedWordsDecode : Obligations.ListedWordsDecode := by
  unfold Obligations.ListedWordsDecode
  decide

/-- Settles O10, by induction on the pushes: each of them adds one byte to whatever the rest holds. -/
theorem sequenceEndsAtFirstNonPush : Obligations.SequenceEndsAtFirstNonPush := by
  intro cfg pushes b rest hpushes
  induction pushes with
  | nil => exact ⟨rfl, fun hb => by rw [List.nil_append, sequenceLength, if_neg hb, List.length_nil]⟩
  | cons p pushes ih =>
    obtain ⟨hp, hrest⟩ := List.forall_mem_cons.mp hpushes
    obtain ⟨hnone, hsome⟩ := ih hrest
    refine ⟨by rw [sequenceLength, if_pos hp, hnone, Option.map_none], fun hb => ?_⟩
    rw [List.cons_append, sequenceLength, if_pos hp, hsome hb, Option.map_some, List.length_cons]

/-! ### The chunk list of a value -/

theorem toInt_of_msb {v : Word} (h : v.msb = true) : v.toInt = v.toNat - 65536 ∧ 32768 ≤ v.toNat := by
  have hmsb := BitVec.msb_eq_decide v
  simp only [h, Bool.true_eq, decide_eq_true_eq] at hmsb
  exact ⟨by rw [BitVec.toInt_eq_msb_cond, if_pos h]; rfl, hmsb⟩

theorem toInt_of_not_msb {v : Word} (h : v.msb = false) : v.toInt = v.toNat ∧ v.toNat < 32768 := by
  have hmsb := BitVec.msb_eq_decide v
  simp only [h, Bool.false_eq, decide_eq_false_iff_not, Nat.not_le] at hmsb
  exact ⟨by rw [BitVec.toInt_eq_msb_cond, h, if_neg (by decide)], hmsb⟩

/-- Bits 15:12 in numbers. -/
theorem topField_eq_iff (v : Word) (k : BitVec 4) : v.extractLsb' 12 4 = k ↔ v.toNat / 4096 = k.toNat := by
  have hv := v.isLt
  rw [← BitVec.toNat_inj, BitVec.extractLsb'_toNat, Nat.shiftRight_eq_div_pow]
  omega

/-- Bits 11:6 in numbers. -/
theorem midChunk_eq_iff (v : Word) (k : Chunk) : v.extractLsb' 6 6 = k ↔ v.toNat / 64 % 64 = k.toNat := by
  rw [← BitVec.toNat_inj, toNat_midChunk]

/-- Bit 5 of a chunk, its sign, in numbers. -/
theorem msb_chunk (c : Chunk) : c.msb = decide (32 ≤ c.toNat) := BitVec.msb_eq_decide c

/-- Settles O6: the conditions of both tables, read as conditions on the signed value. -/
theorem chunkCountThresholds : Obligations.ChunkCountThresholds := by
  intro v
  have hv := v.isLt
  simp only [chunkLength, chunks, msb_chunk, toNat_midChunk, toNat_lowChunk, topField_eq_iff, midChunk_eq_iff,
    decide_eq_true_eq, decide_eq_false_iff_not, apply_ite List.length, List.length_cons, List.length_nil,
    BitVec.reduceToNat]
  cases h : v.msb with
  | true =>
    obtain ⟨hint, hge⟩ := toInt_of_msb h
    rw [hint, if_pos rfl]
    split_ifs <;> omega
  | false =>
    obtain ⟨hint, hlt⟩ := toInt_of_not_msb h
    rw [hint, if_neg Bool.false_ne_true]
    split_ifs <;> omega

/-- The chunk list by the signed value alone (R56): the literal chunks 0x3F and 0x00 of the tables are bits 11:6 in their
ranges, and the number of chunks tells the three shapes apart. -/
theorem chunks_eq (v : Word) :
    chunks v =
      if -32 ≤ v.toInt ∧ v.toInt ≤ 31 then [v.extractLsb' 0 6]
      else if -2048 ≤ v.toInt ∧ v.toInt ≤ 2047 then [v.extractLsb' 6 6, v.extractLsb' 0 6]
      else [v.extractLsb' 6 6, (v.extractLsb' 12 4).setWidth 6, v.extractLsb' 0 6] := by
  have hlength := chunkCountThresholds v
  rw [chunkLength] at hlength
  rcases chunks_shape v with hshape | hshape | hshape
  all_goals
    rw [hshape] at hlength ⊢
    split_ifs at hlength ⊢ <;> simp at hlength ⊢

/-- The chunk list as numbers. -/
theorem chunks_map_toNat (v : Word) :
    (chunks v).map (·.toNat) =
      if -32 ≤ v.toInt ∧ v.toInt ≤ 31 then [v.toNat % 64]
      else if -2048 ≤ v.toInt ∧ v.toInt ≤ 2047 then [v.toNat / 64 % 64, v.toNat % 64]
      else [v.toNat / 64 % 64, v.toNat / 4096, v.toNat % 64] := by
  simp only [chunks_eq, apply_ite (List.map BitVec.toNat), List.map_cons, List.map_nil, toNat_lowChunk, toNat_midChunk,
    toNat_topChunk]

/-- Settles O5: the number of chunks by the signed value, and bits 11:6 where the table writes 0x3F. -/
theorem chunksOfNegativeValues : Obligations.ChunksOfNegativeValues := by
  intro v h top mid low c
  obtain ⟨hint, hge⟩ := toInt_of_msb h
  have hc : c = _ := chunks_map_toNat v
  have hv := v.isLt
  refine ⟨fun h1 => ?one, fun h2 => ?ones, fun h3 => ?two, fun h4 => ?three, ?_, ?_, ?_⟩
  case one => rw [hc, if_pos (by omega)]
  case ones =>
    have hmid : v.toNat / 64 % 64 = 0x3F := by omega
    rw [hc, if_neg (by omega), if_pos (by omega), hmid]
  case two => rw [hc, if_neg (by omega), if_pos (by omega)]
  case three => rw [hc, if_neg (by omega), if_neg (by omega)]
  all_goals
    simp only [top, mid, low]
    omega

/-- Settles O60: the number of chunks by the signed value, and bits 11:6 where the table writes 0x00. -/
theorem chunksOfNonNegativeValues : Obligations.ChunksOfNonNegativeValues := by
  intro v h top mid low c
  obtain ⟨hint, hlt⟩ := toInt_of_not_msb h
  have hc : c = _ := chunks_map_toNat v
  refine ⟨fun h1 => ?one, fun h2 => ?zeros, fun h3 => ?two, fun h4 => ?three, ?_, ?_, ?_⟩
  case one => rw [hc, if_pos (by omega)]
  case zeros =>
    have hmid : v.toNat / 64 % 64 = 0x00 := by omega
    rw [hc, if_neg (by omega), if_pos (by omega), hmid]
  case two => rw [hc, if_neg (by omega), if_pos (by omega)]
  case three => rw [hc, if_neg (by omega), if_neg (by omega)]
  all_goals
    simp only [top, mid, low]
    omega

/-! ### How many chunks a value needs -/

theorem chunkLength_pos (v : Word) : 1 ≤ chunkLength v := by
  rw [chunkCountThresholds v]
  split_ifs <;> decide

theorem chunkLength_le_three (v : Word) : chunkLength v ≤ 3 := by
  rw [chunkCountThresholds v]
  split_ifs <;> decide

/-- Settles O9. -/
theorem encodingLength : Obligations.EncodingLength :=
  fun cfg op v => ⟨length_encodeValue cfg op v, chunkLength_pos v, chunkLength_le_three v⟩

/-- The sign extensions of `w` bits are the values of the signed range of `w` bits. -/
theorem exists_signExtend_eq_iff {w : Nat} (hw : w ≤ 16) (v : Word) :
    (∃ d : BitVec w, d.signExtend 16 = v) ↔ -2 ^ w ≤ 2 * v.toInt ∧ 2 * v.toInt < 2 ^ w := by
  constructor
  · rintro ⟨d, rfl⟩
    rw [BitVec.toInt_signExtend_of_le hw]
    exact ⟨BitVec.le_two_mul_toInt, BitVec.two_mul_toInt_lt⟩
  · rintro ⟨hlow, hhigh⟩
    refine ⟨BitVec.ofInt w v.toInt, BitVec.eq_of_toInt_eq ?_⟩
    rw [BitVec.toInt_signExtend_of_le hw, BitVec.toInt_ofInt]
    have hcast : ((2 ^ w : Nat) : Int) = 2 ^ w := by norm_cast
    exact Int.bmod_eq_of_le_mul_two (by omega) (by omega)

/-- A push and its data are any twelve bits. -/
theorem exists_append_iff (p : BitVec 12 → Prop) : (∃ a b : Chunk, p (a ++ b)) ↔ ∃ x : BitVec 12, p x := by
  constructor
  · rintro ⟨a, b, h⟩
    exact ⟨a ++ b, h⟩
  · rintro ⟨x, h⟩
    have hsplit : x.extractLsb' 6 6 ++ x.extractLsb' 0 6 = x := BitVec.extractLsb'_append_extractLsb'
    exact ⟨x.extractLsb' 6 6, x.extractLsb' 0 6, hsplit.symm ▸ h⟩

/-- Settles O7: six and twelve bits sign-extended spell exactly the ranges at which the count changes. -/
theorem chunkCountMinimal : Obligations.ChunkCountMinimal := by
  intro v
  have hcount := chunkCountThresholds v
  refine ⟨?six, ?twelve, chunkLength_le_three v⟩
  case six =>
    rw [exists_signExtend_eq_iff (by decide), hcount]
    split_ifs <;> omega
  case twelve =>
    rw [exists_append_iff fun x => x.signExtend 16 = v, exists_signExtend_eq_iff (by decide), hcount]
    split_ifs <;> omega

/-- Settles O58: the default sentinel has three chunks, and so has every address outside the two ranges. -/
theorem defaultDriftRanges : Obligations.DefaultDriftRanges := by
  intro t
  have hsentinel : chunkLength Config.default.labelSentinel = 3 := by decide
  have hdrift : drift Config.default t = 3 - (chunkLength t : Int) := by rw [drift, hsentinel]; rfl
  have hint := BitVec.toInt_eq_toNat_cond t
  have ht := t.isLt
  rw [hdrift, chunkCountThresholds t]
  refine ⟨rfl, fun h => ?_, fun h => ?_⟩
  · split_ifs at hint ⊢ <;> omega
  · split_ifs at hint ⊢ <;> omega

end Sys2Proof.Proofs
end

section
/-! PROOF. The carrying counters (R27, R28), the memory map (R32, R33, R39), the Flow register (R74 to R76), reset (R29,
R49) and the placing of a byte for the fetch. -/

namespace Sys2Proof.Proofs

open Sys2Proof.Machine

/-! ### Byte pairs and the carrying counters -/

theorem toNat_ramPair (s : State) (i : Nat) :
    (s.ramPair i).toNat = (s.ramByte (i + 1)).toNat * 256 + (s.ramByte i).toNat := toNat_append _ _

/-- A byte pair is its two bytes. -/
theorem ramPair_congr_bytes {s t : State} {i : Nat} (hlow : s.ramByte i = t.ramByte i)
    (hhigh : s.ramByte (i + 1) = t.ramByte (i + 1)) : s.ramPair i = t.ramPair i := by
  rw [State.ramPair, State.ramPair, hlow, hhigh]

theorem add_one_eq_zero_iff (b : Byte) : b + 1 = 0x00 ↔ b = 0xFF := by bv_omega

theorem sub_one_eq_allOnes_iff (b : Byte) : b - 1 = 0xFF ↔ b = 0x00 := by bv_omega

/-- The carry is decided by the low byte before the count. -/
theorem counterUp_eq_ite (s : State) (i : Nat) :
    s.counterUp i =
      if s.ramByte i = 0xFF then (s.setRam i (s.ramByte i + 1)).setRam (i + 1) (s.ramByte (i + 1) + 1)
      else s.setRam i (s.ramByte i + 1) := by
  have hcond : (s.setRam i (s.ramByte i + 1)).ramByte i = 0x00 ↔ s.ramByte i = 0xFF := by
    rw [State.ramByte_setRam_same, add_one_eq_zero_iff]
  have hhigh := State.ramByte_setRam_of_ne s (s.ramByte i + 1) (Nat.ne_add_one i)
  unfold State.counterUp
  dsimp only
  rw [hhigh]
  exact ite_congr (propext hcond) (fun _ => rfl) fun _ => rfl

/-- The borrow is decided by the low byte before the count. -/
theorem counterDown_eq_ite (s : State) (i : Nat) :
    s.counterDown i =
      if s.ramByte i = 0x00 then (s.setRam i (s.ramByte i - 1)).setRam (i + 1) (s.ramByte (i + 1) - 1)
      else s.setRam i (s.ramByte i - 1) := by
  have hcond : (s.setRam i (s.ramByte i - 1)).ramByte i = 0xFF ↔ s.ramByte i = 0x00 := by
    rw [State.ramByte_setRam_same, sub_one_eq_allOnes_iff]
  have hhigh := State.ramByte_setRam_of_ne s (s.ramByte i - 1) (Nat.ne_add_one i)
  unfold State.counterDown
  dsimp only
  rw [hhigh]
  exact ite_congr (propext hcond) (fun _ => rfl) fun _ => rfl

theorem ramByte_counterUp_low (s : State) (i : Nat) : (s.counterUp i).ramByte i = s.ramByte i + 1 := by
  rw [counterUp_eq_ite]
  split <;> simp [State.ramByte_setRam]

/-- The carry: the high byte counts when the low one wraps. -/
theorem ramByte_counterUp_high (s : State) (i : Nat) :
    (s.counterUp i).ramByte (i + 1) =
      if s.ramByte i = 0xFF then s.ramByte (i + 1) + 1 else s.ramByte (i + 1) := by
  rw [counterUp_eq_ite]
  split <;> simp [State.ramByte_setRam]

theorem ramByte_counterDown_low (s : State) (i : Nat) : (s.counterDown i).ramByte i = s.ramByte i - 1 := by
  rw [counterDown_eq_ite]
  split <;> simp [State.ramByte_setRam]

/-- The borrow: the high byte counts when the low one wraps. -/
theorem ramByte_counterDown_high (s : State) (i : Nat) :
    (s.counterDown i).ramByte (i + 1) =
      if s.ramByte i = 0x00 then s.ramByte (i + 1) - 1 else s.ramByte (i + 1) := by
  rw [counterDown_eq_ite]
  split <;> simp [State.ramByte_setRam]

/-- As one value the pair counts up modulo 65536. -/
theorem ramPair_counterUp (s : State) (i : Nat) : (s.counterUp i).ramPair i = s.ramPair i + 1 := by
  apply BitVec.eq_of_toNat_eq
  rw [BitVec.toNat_add, toNat_ramPair, toNat_ramPair, ramByte_counterUp_low, ramByte_counterUp_high]
  split <;> bv_omega

/-- As one value the pair counts down modulo 65536. -/
theorem ramPair_counterDown (s : State) (i : Nat) : (s.counterDown i).ramPair i = s.ramPair i - 1 := by
  apply BitVec.eq_of_toNat_eq
  rw [BitVec.toNat_sub, toNat_ramPair, toNat_ramPair, ramByte_counterDown_low, ramByte_counterDown_high]
  split <;> bv_omega

/-- Settles O26: the two bytes, the pair they make, and the frame. -/
theorem carryingIncrement : Obligations.CarryingIncrement := fun s i =>
  ⟨ramByte_counterUp_low s i, ramByte_counterUp_high s i, ramPair_counterUp s i,
    fun _ hlow hhigh => State.ramByte_counterUp_of_ne s hlow.symm hhigh.symm, State.counterUp_eq s i⟩

/-- Settles O27: the two bytes, the pair they make, and the frame. -/
theorem carryingDecrement : Obligations.CarryingDecrement := fun s i =>
  ⟨ramByte_counterDown_low s i, ramByte_counterDown_high s i, ramPair_counterDown s i,
    fun _ hlow hhigh => State.ramByte_counterDown_of_ne s hlow.symm hhigh.symm, State.counterDown_eq s i⟩

theorem ramPair_counterUp_of_ne (s : State) {i j : Nat} (h : j + 1 < i ∨ i + 1 < j) :
    (s.counterUp i).ramPair j = s.ramPair j :=
  ramPair_congr_bytes (State.ramByte_counterUp_of_ne s (by omega) (by omega))
    (State.ramByte_counterUp_of_ne s (by omega) (by omega))

theorem ramPair_counterDown_of_ne (s : State) {i j : Nat} (h : j + 1 < i ∨ i + 1 < j) :
    (s.counterDown i).ramPair j = s.ramPair j :=
  ramPair_congr_bytes (State.ramByte_counterDown_of_ne s (by omega) (by omega))
    (State.ramByte_counterDown_of_ne s (by omega) (by omega))

/-! ### `Read8`, one equation per region of the map -/

theorem read8_outOfRange (s : State) {a : Nat} (h : 0x10000 ≤ a) : s.read8 a = (0x00, s.warn (.outOfRangeRead a)) := by
  rw [State.read8, if_pos h]

theorem read8_rom (s : State) {a : Nat} (h : 0x8000 ≤ a) (h' : a < 0x10000) :
    s.read8 a = (s.romByte (a - 0x8000), s) := by
  rw [State.read8, if_neg (by omega), if_pos h]

theorem read8_io (s : State) {a : Nat} (h : IsIo a) : s.read8 a = s.hostRead (ioAddress a) := by
  obtain ⟨hlow, hhigh⟩ := h
  rw [State.read8, if_neg (by omega), if_neg (by omega), if_pos hlow]

theorem read8_nandView (s : State) : s.read8 6 = (s.nandView, s) := rfl

theorem read8_rotateView (s : State) : s.read8 7 = (s.rotateView, s) := rfl

theorem read8_ram (s : State) {a : Nat} (h : a < 0x4000) (h6 : a ≠ 6) (h7 : a ≠ 7) : s.read8 a = (s.ramByte a, s) := by
  rw [State.read8, if_neg (by omega), if_neg (by omega), if_neg (by omega), if_neg h6, if_neg h7]

theorem getLsbD_nandView (s : State) {j : Nat} (h : j < 8) :
    s.nandView.getLsbD j = !((s.ramByte 4).getLsbD j && (s.ramByte 5).getLsbD j) := by
  simp [State.nandView, h]

/-- A right rotation takes each bit from `k` places above, counted modulo 8. -/
theorem getLsbD_ror8 (x : Byte) (k : Fin 8) {j : Nat} (h : j < 8) :
    (ror8 x k).getLsbD j = x.getLsbD ((j + k.val) % 8) := by
  have hk := k.isLt
  rw [ror8, BitVec.getLsbD_or, BitVec.getLsbD_ushiftRight, BitVec.getLsbD_shiftLeft]
  by_cases hwrap : j + k.val < 8
  · have hlow : j < 8 - k.val := by omega
    simp [hlow, Nat.mod_eq_of_lt hwrap, Nat.add_comm]
  · have hlow : ¬ j < 8 - k.val := by omega
    have hmod : (j + k.val) % 8 = j - (8 - k.val) := by omega
    have hout : x.getLsbD (k.val + j) = false := BitVec.getLsbD_of_ge _ _ (by omega)
    simp [h, hlow, hmod, hout]

/-- Settles O28, region by region. -/
theorem readByteMap : Obligations.ReadByteMap := by
  intro s a
  refine ⟨read8_outOfRange s, fun h => read8_rom s h.1 h.2, read8_io s, ?nand, ?rotate,
    fun ⟨h, h6, h7⟩ => read8_ram s h h6 h7⟩
  case nand =>
    rintro rfl
    exact ⟨rfl, fun j hj => getLsbD_nandView s hj⟩
  case rotate =>
    rintro rfl
    exact ⟨rfl, fun j hj => getLsbD_ror8 _ _ hj⟩

/-! ### `Write8`, one equation per region of the map -/

theorem write8_outOfRange (s : State) {a : Nat} (b : Byte) (h : 0x10000 ≤ a) :
    s.write8 a b = s.warn (.outOfRangeWrite a) := by
  rw [State.write8, if_pos h]

theorem write8_rom (s : State) {a : Nat} (b : Byte) (h : 0x8000 ≤ a) (h' : a < 0x10000) :
    s.write8 a b = s.warn (.romWrite a) := by
  rw [State.write8, if_neg (by omega), if_pos h]

theorem write8_io (s : State) {a : Nat} (b : Byte) (h : IsIo a) : s.write8 a b = s.hostWrite (ioAddress a) b := by
  obtain ⟨hlow, hhigh⟩ := h
  rw [State.write8, if_neg (by omega), if_neg (by omega), if_pos hlow]

theorem write8_nandView (s : State) (b : Byte) : s.write8 6 b = s := rfl

theorem write8_flow (s : State) (b : Byte) : s.write8 7 b = s.flowWrite b := rfl

theorem write8_ram (s : State) {a : Nat} (b : Byte) (h : a < 0x4000) (h6 : a ≠ 6) (h7 : a ≠ 7) :
    s.write8 a b = s.setRam a b := by
  rw [State.write8, if_neg (by omega), if_neg (by omega), if_neg (by omega), if_neg h6, if_neg h7]

/-- Everything `Write8` can do: drop the byte with a warning, hand it to the host, drop it silently, write Flow, or store
it. -/
theorem write8_cases (s : State) (a : Nat) (b : Byte) :
    (0x8000 ≤ a ∧ ∃ w, s.write8 a b = s.warn w) ∨
      (IsIo a ∧ s.write8 a b = s.hostWrite (ioAddress a) b) ∨
      (a = 6 ∧ s.write8 a b = s) ∨
      (a = 7 ∧ s.write8 a b = s.flowWrite b) ∨
      ((a < 0x4000 ∧ a ≠ 6 ∧ a ≠ 7) ∧ s.write8 a b = s.setRam a b) := by
  by_cases hout : 0x10000 ≤ a
  · exact .inl ⟨by omega, _, write8_outOfRange s b hout⟩
  by_cases hrom : 0x8000 ≤ a
  · exact .inl ⟨hrom, _, write8_rom s b hrom (by omega)⟩
  by_cases hio : 0x4000 ≤ a
  · exact .inr (.inl ⟨⟨hio, by omega⟩, write8_io s b ⟨hio, by omega⟩⟩)
  by_cases h6 : a = 6
  · subst h6
    exact .inr (.inr (.inl ⟨rfl, rfl⟩))
  by_cases h7 : a = 7
  · subst h7
    exact .inr (.inr (.inr (.inl ⟨rfl, rfl⟩)))
  · exact .inr (.inr (.inr (.inr ⟨⟨by omega, h6, h7⟩, write8_ram s b (by omega) h6 h7⟩)))

/-- Settles O29, region by region. -/
theorem writeByteMap : Obligations.WriteByteMap := by
  intro s a b
  refine ⟨write8_outOfRange s b, fun h => write8_rom s b h.1 h.2, write8_io s b, ?nand, ?flow, ?ram⟩
  case nand =>
    rintro rfl
    rfl
  case flow =>
    rintro rfl
    rfl
  case ram =>
    rintro ⟨h, h6, h7⟩
    rw [write8_ram s b h h6 h7]
    exact ⟨State.ramByte_setRam_same s a b, fun x hx => State.ramByte_setRam_of_ne s b hx.symm, rfl⟩

/-! ### Byte order -/

/-- Settles O30: in plain RAM a sixteen-wide write is two stores, and each byte is read back where it was stored. -/
theorem littleEndian : Obligations.LittleEndian := by
  intro s a v hlow hhigh t
  have ht : t = (s.setRam a.toNat (v.extractLsb' 0 8)).setRam (a.toNat + 1) (v.extractLsb' 8 8) := by
    simp only [t, State.memWrite, if_true]
    rw [write8_ram s _ (by omega) (by omega) (by omega), write8_ram _ _ hhigh (by omega) (by omega)]
  have hread {x : Nat} (hx : 8 ≤ x) (hx' : x < 0x4000) : t.read8 x = (t.ramByte x, t) :=
    read8_ram t hx' (by omega) (by omega)
  have hlo : t.ramByte a.toNat = v.extractLsb' 0 8 := by
    rw [ht, State.ramByte_setRam_of_ne _ _ (by omega), State.ramByte_setRam_same]
  have hhi : t.ramByte (a.toNat + 1) = v.extractLsb' 8 8 := by rw [ht, State.ramByte_setRam_same]
  have hnext : (a + 1).toNat = a.toNat + 1 := by bv_omega
  refine ⟨?_, ?_, ?_, rfl, rfl, rfl⟩
  · simp [State.memRead, hread hlow (by omega), hlo]
  · simp only [State.memRead, hnext, hread (by omega) hhigh, hhi, Bool.false_eq_true, if_false]
  · simp [State.memRead, hread hlow (by omega), hread (by omega) hhigh, hlo, hhi, word_split]

/-! ### `FlowWrite` -/

/-- The 16-bit step a Flow bit asks for: 1 when it is set, else 0. -/
def flowStep (b : Byte) (i : Fin 8) : Word := if b.getLsbD i.val then 1 else 0

/-- Loop counts down by its Flow bit; the counts of Indirect do not touch it (R74, R75). -/
theorem loop_flowCounters (s : State) (b : Byte) :
    (s.flowCounters b).loop = s.loop - flowStep b s.config.fbLoopDown := by
  have hup (t : State) : (t.counterUp 4).ramPair 2 = t.ramPair 2 := ramPair_counterUp_of_ne t (by omega)
  have hdown (t : State) : (t.counterDown 4).ramPair 2 = t.ramPair 2 := ramPair_counterDown_of_ne t (by omega)
  unfold State.flowCounters State.loop flowStep flowBit
  dsimp only
  split_ifs <;> simp [hup, hdown, ramPair_counterDown]

/-- Indirect counts up, then down, by its two Flow bits; the count of Loop does not touch it. -/
theorem ind_flowCounters (s : State) (b : Byte) :
    (s.flowCounters b).ind = s.ind + flowStep b s.config.fbIndUp - flowStep b s.config.fbIndDown := by
  have hloop (t : State) : (t.counterDown 2).ramPair 4 = t.ramPair 4 := ramPair_counterDown_of_ne t (by omega)
  unfold State.flowCounters State.ind flowStep flowBit
  dsimp only
  split_ifs <;> simp [hloop, ramPair_counterDown, ramPair_counterUp]

@[simp] theorem flowWrite_ram (s : State) (b : Byte) : (s.flowWrite b).ram = (s.flowCounters b).ram := rfl

@[simp] theorem flowWrite_f16 (s : State) (b : Byte) :
    (s.flowWrite b).f16 = (s.f16 || b.getLsbD s.config.fbSixteen.val) := by
  simp [State.flowWrite, flowBit]

@[simp] theorem flowWrite_finh (s : State) (b : Byte) :
    (s.flowWrite b).finh = (s.finh || b.getLsbD s.config.fbInhibit.val) := by
  simp [State.flowWrite, flowBit]

@[simp] theorem flowWrite_fli (s : State) (b : Byte) :
    (s.flowWrite b).fli = (s.fli || b.getLsbD s.config.fbLoadInd.val) := by
  simp [State.flowWrite, flowBit]

@[simp] theorem flowWrite_fsi (s : State) (b : Byte) :
    (s.flowWrite b).fsi = (s.fsi || b.getLsbD s.config.fbStoreInd.val) := by
  simp [State.flowWrite, flowBit]

@[simp] theorem flowWrite_fw (s : State) (b : Byte) :
    (s.flowWrite b).fw = (s.fw || b.getLsbD s.config.fbFrameWait.val) := by
  simp [State.flowWrite, flowBit]

theorem loop_flowWrite (s : State) (b : Byte) :
    (s.flowWrite b).loop = s.loop - flowStep b s.config.fbLoopDown := by
  rw [State.loop_congr (flowWrite_ram s b), loop_flowCounters]

theorem ind_flowWrite (s : State) (b : Byte) :
    (s.flowWrite b).ind = s.ind + flowStep b s.config.fbIndUp - flowStep b s.config.fbIndDown := by
  rw [State.ind_congr (flowWrite_ram s b), ind_flowCounters]

theorem ramByte_flowWrite_of_ne (s : State) (b : Byte) {x : Nat} (h : x < 2 ∨ 5 < x) :
    (s.flowWrite b).ramByte x = s.ramByte x := by
  rw [State.ramByte_congr (flowWrite_ram s b), State.ramByte_flowCounters_of_ne s b h]

/-- Settles O31: the two counters, the five flags, and the frame. -/
theorem flowWriteEffects : Obligations.FlowWriteEffects := by
  intro s b t one
  refine ⟨loop_flowWrite s b, ind_flowWrite s b, ?_, ?_, ?_, ?_, ?_, fun x hx => ramByte_flowWrite_of_ne s b hx,
    State.flowWrite_eq s b⟩
  all_goals simp [t]

/-! ### Reset -/

theorem pc_resetWith (cfg : Config) (image : Memory) : (State.resetWith cfg image).pc = cfg.resetIP := by
  have hlow : (State.resetWith cfg image).ramByte 0 = cfg.resetIP.extractLsb' 0 8 := by
    simp [State.resetWith, State.ramByte, Memory.resetRam, Memory.get_set]
  have hhigh : (State.resetWith cfg image).ramByte 1 = cfg.resetIP.extractLsb' 8 8 := by
    simp [State.resetWith, State.ramByte, Memory.resetRam]
  rw [State.pc, State.ramPair, hlow, hhigh, word_split]

theorem ramByte_resetWith (cfg : Config) (image : Memory) {a : Nat} (h : 2 ≤ a) :
    (State.resetWith cfg image).ramByte a = 0 := by
  have h0 : 0 ≠ a := by omega
  have h1 : 1 ≠ a := by omega
  rw [State.ramByte, State.resetWith, Memory.resetRam, Memory.get_set_of_ne _ _ h1, Memory.get_set_of_ne _ _ h0]
  rfl

/-- The ROM load moves image byte `0x8000 + i` to ROM index `i` (R49). -/
theorem get_romOfImage (image : Memory) {i : Nat} (h : i < 0x8000) :
    Memory.get (Memory.romOfImage image) i = Memory.get image (0x8000 + i) := by
  induction image with
  | nil => rfl
  | cons c image ih =>
    rw [Memory.romOfImage] at ih ⊢
    rw [List.filter_cons, Memory.get_cons]
    split_ifs with hkeep hat hat
    · rw [List.map_cons, Memory.get_cons, if_pos (by omega)]
    · rw [decide_eq_true_eq] at hkeep
      rw [List.map_cons, Memory.get_cons, if_neg (by omega), ih]
    · rw [decide_eq_true_eq] at hkeep
      omega
    · exact ih

/-- Settles O14. -/
theorem romLoadTakesUpperHalf : Obligations.RomLoadTakesUpperHalf := fun cfg image =>
  ⟨fun _ hi => get_romOfImage image hi, rfl, pc_resetWith cfg image⟩

/-- Settles O13: IP by the bytes reset writes, every other byte because nothing wrote it. -/
theorem resetValues : Obligations.ResetValues := by
  refine ⟨rfl, rfl, rfl, pc_resetWith _ _, ?loop, ?ind, fun a ha => ramByte_resetWith _ _ ha, fun _ => rfl,
    ⟨rfl, rfl, rfl, rfl⟩, rfl, rfl⟩
  case loop => decide
  case ind => decide

/-- Settles O15: reset writes bytes 0 and 1 alone, and the ROM load keeps the canonical form. -/
theorem resetWellFormed : Obligations.ResetWellFormed := by
  have hreset (cfg : Config) (image : Memory) (h : Memory.wf image) : (State.resetWith cfg image).WellFormed := by
    refine ⟨⟨Memory.wf_resetRam _, fun c hc => ?_⟩, Memory.wf_romOfImage h, fun c hc => (Memory.mem_romOfImage.mp hc).1⟩
    rcases Memory.mem_set hc with hc | rfl
    · rcases Memory.mem_set hc with hc | rfl
      · cases hc
      · exact ⟨by omega, by omega, by omega⟩
    · exact ⟨by omega, by omega, by omega⟩
  exact ⟨hreset _ _ Memory.wf_nil, hreset⟩

/-! ### The byte placed for the fetch -/

/-- A left rotation moves each bit `k` places up, counted modulo 8. -/
theorem getLsbD_rol8 (x : Byte) (k : Fin 8) {j : Nat} (h : j < 8) :
    (rol8 x k).getLsbD ((j + k.val) % 8) = x.getLsbD j := by
  have hk := k.isLt
  rw [rol8, BitVec.getLsbD_or, BitVec.getLsbD_ushiftRight, BitVec.getLsbD_shiftLeft]
  by_cases hwrap : j + k.val < 8
  · have hout : x.getLsbD (8 - k.val + (j + k.val)) = false := BitVec.getLsbD_of_ge _ _ (by omega)
    simp [Nat.mod_eq_of_lt hwrap, hwrap, hout]
  · have hmod : (j + k.val) % 8 = j + k.val - 8 := by omega
    have hlow : j + k.val - 8 < k.val := by omega
    have hback : 8 - k.val + (j + k.val - 8) = j := by omega
    simp [hmod, hlow, hback]

/-- Rotating left, then right, by one count gives the byte back. -/
theorem ror8_rol8 (b : Byte) (k : Fin 8) : ror8 (rol8 b k) k = b :=
  BitVec.eq_of_getLsbD_eq fun j hj => by rw [getLsbD_ror8 _ _ hj, getLsbD_rol8 _ _ hj]

/-- The fetch reads at IP through the whole map (R42, D14). -/
theorem fetch_fst (s : State) : s.fetch.1 = (s.read8 s.pc.toNat).1 := by rw [State.fetch]

/-- Then IP is advanced (R66). -/
theorem fetch_snd (s : State) : s.fetch.2 = (s.read8 s.pc.toNat).2.counterUp 0 := by rw [State.fetch]

/-- IP is bytes 0 and 1 alone. -/
theorem pc_setRam_of_ge (s : State) {i : Nat} (b : Byte) (h : 2 ≤ i) : (s.setRam i b).pc = s.pc :=
  ramPair_congr_bytes (State.ramByte_setRam_of_ne s b (by omega)) (State.ramByte_setRam_of_ne s b (by omega))

/-- Settles O50: in each region of the map the placing puts the byte where the read at IP finds it. -/
theorem placedByteIsFetched : Obligations.PlacedByteIsFetched := by
  intro s b
  have hpc := s.pc.isLt
  rw [fetch_fst, State.placeAtFetch]
  split_ifs with hrom hio hnand hrotate hip
  · have hsame : ({ s with rom := Memory.set s.rom (s.pc.toNat - 0x8000) b } : State).pc = s.pc := State.pc_congr rfl
    rw [hsame, read8_rom _ hrom hpc, State.romByte, Memory.get_set_same]
  · have hsame : ({ s with hostAnswers := b :: s.hostAnswers.tail } : State).pc = s.pc := State.pc_congr rfl
    rw [hsame, read8_io _ ⟨hio, by omega⟩, State.hostRead_fst, List.headD_cons]
  · rw [pc_setRam_of_ge _ _ (by omega), pc_setRam_of_ge _ _ (by omega), hnand, read8_nandView]
    have hmask : ~~~b &&& 0xFF = ~~~b := BitVec.and_allOnes
    rw [State.nandView, State.ramByte_setRam_of_ne _ _ (by decide), State.ramByte_setRam_same,
      State.ramByte_setRam_same, hmask, BitVec.not_not]
  · rw [pc_setRam_of_ge _ _ (by omega), hrotate, read8_rotateView]
    simp [State.rotateView, ror8_rol8]
  · have hmoved : ({ s.setPc 0x8000 with rom := Memory.set s.rom 0 b } : State).pc = 0x8000 :=
      (State.pc_congr rfl).trans (State.pc_setPc s 0x8000)
    rw [hmoved, read8_rom _ (by decide) (by decide), State.romByte]
    exact Memory.get_set_same s.rom 0 b
  · rw [pc_setRam_of_ge _ _ (by omega), read8_ram _ (by omega) hnand hrotate, State.ramByte_setRam_same]

end Sys2Proof.Proofs
end

section
/-! PROOF. What every instruction and every step keeps (R16, R25, R66, R94, R97), the literal an instruction assembles (R67
to R69), and what no step can observe (R12, R25). -/

namespace Sys2Proof.Proofs

open Sys2Proof.Machine

/-! ### The state from which a data move makes its accesses -/

/-- The state from which an `AsMovD` reads (R70): the operand assembled, with its warning when due, and the two flags of a
load used up. -/
def loadReady (s : State) (data : Chunk) : State :=
  { s with
    A := finalValue s.A s.n data, n := 0, fli := false, f16 := false
    warnings := s.warnings ++ pushWarnings s.n }

/-- The state from which a `DMovAs` writes (R71): the operand assembled, with its warning when due, and the three flags of a
store used up. -/
def storeReady (s : State) (data : Chunk) : State :=
  { s with
    A := finalValue s.A s.n data, n := 0, fsi := false, finh := false, f16 := false
    warnings := s.warnings ++ pushWarnings s.n }

/-- `FinalA` with the name of the warnings it appends (R68). -/
theorem finalA_eq_pushWarnings (s : State) (data : Chunk) :
    s.finalA data =
      (finalValue s.A s.n data,
        { s with A := finalValue s.A s.n data, n := 0, warnings := s.warnings ++ pushWarnings s.n }) :=
  State.finalA_eq s data

theorem exec_aMovD_eq (s : State) (data : Chunk) :
    exec (.aMovD data) s =
      .next
        { s with
          A := finalValue s.A s.n data, D := finalValue s.A s.n data, n := 0
          warnings := s.warnings ++ pushWarnings s.n } := by
  rw [exec_aMovD, finalA_eq_pushWarnings]

theorem exec_asMovD_eq (s : State) (data : Chunk) :
    exec (.asMovD data) s =
      .next
        { ((loadReady s data).memRead (s.loadAddress (finalValue s.A s.n data)) s.f16).2 with
          D := ((loadReady s data).memRead (s.loadAddress (finalValue s.A s.n data)) s.f16).1 } := by
  rw [exec_asMovD, finalA_eq_pushWarnings]
  rfl

theorem exec_dMovAs_eq (s : State) (data : Chunk) :
    exec (.dMovAs data) s =
      .next
        (if s.storeSkipped then storeReady s data
        else (storeReady s data).memWrite (s.storeAddress (finalValue s.A s.n data)) s.f16 s.D) := by
  rw [exec_dMovAs, finalA_eq_pushWarnings]
  rfl

/-! ### ROM and the parameters -/

/-- No instruction writes ROM or the parameters. -/
theorem exec_keeps_rom_config {i : Instr} {s t : State} (h : exec i s = .next t) :
    t.rom = s.rom ∧ t.config = s.config := by
  cases i with
  | pushA data =>
    cases h
    exact ⟨rfl, rfl⟩
  | aMovD data =>
    rw [exec_aMovD_eq] at h
    cases h
    exact ⟨rfl, rfl⟩
  | asMovD data =>
    rw [exec_asMovD_eq] at h
    cases h
    exact ⟨State.memRead_rom _ _ _, State.memRead_config _ _ _⟩
  | dMovAs data =>
    rw [exec_dMovAs_eq] at h
    cases h
    split
    · exact ⟨rfl, rfl⟩
    · exact ⟨State.memWrite_rom _ _ _ _, State.memWrite_config _ _ _ _⟩

theorem step_keeps_rom_config {s t : State} (h : step s = .next t) : t.rom = s.rom ∧ t.config = s.config := by
  obtain ⟨hrom, hconfig⟩ := exec_keeps_rom_config h
  exact ⟨hrom.trans (State.fetch_rom s), hconfig.trans (State.fetch_config s)⟩

/-- Settles O19. -/
theorem romIsReadOnly : Obligations.RomIsReadOnly :=
  ⟨fun _ _ h => (step_keeps_rom_config h).1, fun s _ hlow hhigh => read8_rom s hlow hhigh⟩

/-- Settles O20. -/
theorem parametersNeverChange : Obligations.ParametersNeverChange := fun _ _ h => (step_keeps_rom_config h).2

/-! ### The canonical form of the memories -/

/-- The invariant reads the two memories alone. -/
theorem wellFormed_congr {s t : State} (hs : s.WellFormed) (hram : t.ram = s.ram) (hrom : t.rom = s.rom) :
    t.WellFormed := by
  rwa [State.WellFormed, hram, hrom]

theorem setRam_wellFormed {s : State} (hs : s.WellFormed) {i : Nat} (b : Byte) (h : i < 0x4000 ∧ i ≠ 6 ∧ i ≠ 7) :
    (s.setRam i b).WellFormed := by
  obtain ⟨⟨hwf, hrange⟩, hrom⟩ := hs
  refine ⟨⟨Memory.wf_set hwf i b, fun c hc => ?_⟩, hrom⟩
  rcases Memory.mem_set hc with hc | rfl
  · exact hrange c hc
  · exact h

/-- A counter of the window writes the window's pair alone. -/
theorem counterUp_wellFormed {s : State} (hs : s.WellFormed) {i : Nat} (h : i ≤ 4) : (s.counterUp i).WellFormed := by
  have hlow (b : Byte) := setRam_wellFormed hs (i := i) b (by omega)
  rw [counterUp_eq_ite]
  split
  · exact setRam_wellFormed (hlow _) _ (by omega)
  · exact hlow _

theorem counterDown_wellFormed {s : State} (hs : s.WellFormed) {i : Nat} (h : i ≤ 4) :
    (s.counterDown i).WellFormed := by
  have hlow (b : Byte) := setRam_wellFormed hs (i := i) b (by omega)
  rw [counterDown_eq_ite]
  split
  · exact setRam_wellFormed (hlow _) _ (by omega)
  · exact hlow _

theorem ite_wellFormed (p : Bool) {s t : State} (hs : s.WellFormed) (ht : t.WellFormed) :
    (if p then s else t).WellFormed := by
  cases p
  · exact ht
  · exact hs

theorem flowCounters_wellFormed {s : State} (hs : s.WellFormed) (b : Byte) : (s.flowCounters b).WellFormed := by
  have hloop := ite_wellFormed (flowBit b s.config.fbLoopDown) (counterDown_wellFormed hs (i := 2) (by omega)) hs
  have hup := ite_wellFormed (flowBit b s.config.fbIndUp) (counterUp_wellFormed hloop (i := 4) le_rfl) hloop
  have hdown := ite_wellFormed (flowBit b s.config.fbIndDown) (counterDown_wellFormed hup (i := 4) le_rfl) hup
  rw [State.flowCounters]
  exact hdown

theorem flowWrite_wellFormed {s : State} (hs : s.WellFormed) (b : Byte) : (s.flowWrite b).WellFormed :=
  flowCounters_wellFormed hs b

/-- A byte written at 6 is stored nowhere, one at 7 only moves counters of the window (D11). -/
theorem write8_wellFormed {s : State} (hs : s.WellFormed) (a : Nat) (b : Byte) : (s.write8 a b).WellFormed := by
  rcases write8_cases s a b with ⟨-, w, h⟩ | ⟨-, h⟩ | ⟨-, h⟩ | ⟨-, h⟩ | ⟨ha, h⟩ <;> rw [h]
  · exact wellFormed_congr hs rfl rfl
  · exact wellFormed_congr hs rfl rfl
  · exact hs
  · exact flowWrite_wellFormed hs b
  · exact setRam_wellFormed hs b ha

theorem memWrite_wellFormed {s : State} (hs : s.WellFormed) (a : Word) (wide : Bool) (v : Word) :
    (s.memWrite a wide v).WellFormed := by
  cases wide
  · exact write8_wellFormed hs _ _
  · exact write8_wellFormed (write8_wellFormed hs _ _) _ _

theorem fetch_wellFormed {s : State} (hs : s.WellFormed) : s.fetch.2.WellFormed := by
  rw [fetch_snd]
  exact counterUp_wellFormed (wellFormed_congr hs (State.read8_ram s _) (State.read8_rom s _)) (by omega)

theorem exec_wellFormed {i : Instr} {s t : State} (hs : s.WellFormed) (h : exec i s = .next t) : t.WellFormed := by
  cases i with
  | pushA data =>
    cases h
    exact hs
  | aMovD data =>
    rw [exec_aMovD_eq] at h
    cases h
    exact hs
  | asMovD data =>
    rw [exec_asMovD_eq] at h
    cases h
    exact wellFormed_congr hs (State.memRead_ram _ _ _) (State.memRead_rom _ _ _)
  | dMovAs data =>
    rw [exec_dMovAs_eq] at h
    cases h
    have hready : (storeReady s data).WellFormed := hs
    split
    · exact hready
    · exact memWrite_wellFormed hready _ _ _

/-- Settles O18: the fetch writes IP, an instruction writes through `Write8`, and each keeps the invariant. -/
theorem stepKeepsWellFormed : Obligations.StepKeepsWellFormed :=
  fun _ _ hs h => exec_wellFormed (fetch_wellFormed hs) h

/-! ### The logs -/

/-- From `s` to `t` at most `w` warnings and `c` host calls are appended, and each read among the calls takes one host
answer. -/
def LogsGrow (w c : Nat) (s t : State) : Prop :=
  ∃ (ws : List Warning) (cs : List HostCall),
    t.warnings = s.warnings ++ ws ∧ ws.length ≤ w ∧ t.hostCalls = s.hostCalls ++ cs ∧ cs.length ≤ c ∧
      t.hostAnswers = s.hostAnswers.drop (cs.countP HostCall.isRead)

theorem LogsGrow.trans {w w' c c' : Nat} {s t u : State} (h : LogsGrow w c s t) (h' : LogsGrow w' c' t u) :
    LogsGrow (w + w') (c + c') s u := by
  obtain ⟨ws, cs, hw, hwl, hc, hcl, ha⟩ := h
  obtain ⟨ws', cs', hw', hwl', hc', hcl', ha'⟩ := h'
  refine ⟨ws ++ ws', cs ++ cs', by rw [hw', hw, List.append_assoc], ?_, by rw [hc', hc, List.append_assoc], ?_, ?_⟩
  · rw [List.length_append]
    omega
  · rw [List.length_append]
    omega
  · rw [ha', ha, List.drop_drop, List.countP_append]

theorem LogsGrow.mono {w w' c c' : Nat} {s t : State} (h : LogsGrow w c s t) (hw : w ≤ w') (hc : c ≤ c') :
    LogsGrow w' c' s t := by
  obtain ⟨ws, cs, hws, hwl, hcs, hcl, ha⟩ := h
  exact ⟨ws, cs, hws, hwl.trans hw, hcs, hcl.trans hc, ha⟩

theorem logsGrow_of_eq {s t : State} (hw : t.warnings = s.warnings) (hc : t.hostCalls = s.hostCalls)
    (ha : t.hostAnswers = s.hostAnswers) : LogsGrow 0 0 s t :=
  ⟨[], [], by simp [hw], le_rfl, by simp [hc], le_rfl, by simp [ha]⟩

theorem logsGrow_warn (s : State) (w : Warning) : LogsGrow 1 0 s (s.warn w) :=
  ⟨[w], [], rfl, le_rfl, by simp, le_rfl, rfl⟩

theorem logsGrow_hostRead (s : State) (r : BitVec 14) : LogsGrow 0 1 s (s.hostRead r).2 :=
  ⟨[], [.read r (s.hostAnswers.headD noHandlerByte)], by simp, le_rfl, rfl, le_rfl,
    by simp [HostCall.isRead]⟩

theorem logsGrow_hostWrite (s : State) (r : BitVec 14) (b : Byte) : LogsGrow 0 1 s (s.hostWrite r b) :=
  ⟨[], [.write r b], by simp, le_rfl, rfl, le_rfl, by simp [HostCall.isRead]⟩

/-- A read inside the address space makes no warning. -/
theorem logsGrow_read8_of_lt (s : State) {a : Nat} (h : a < 0x10000) : LogsGrow 0 1 s (s.read8 a).2 := by
  have hsame : LogsGrow 0 1 s s := (logsGrow_of_eq rfl rfl rfl).mono le_rfl (by omega)
  rw [State.read8, if_neg (by omega)]
  split_ifs
  · exact hsame
  · exact logsGrow_hostRead s _
  all_goals exact hsame

theorem logsGrow_read8 (s : State) (a : Nat) : LogsGrow 1 1 s (s.read8 a).2 := by
  by_cases h : a < 0x10000
  · exact (logsGrow_read8_of_lt s h).mono (by omega) le_rfl
  · rw [read8_outOfRange s (by omega)]
    exact (logsGrow_warn s _).mono le_rfl (by omega)

theorem logsGrow_write8 (s : State) (a : Nat) (b : Byte) : LogsGrow 1 1 s (s.write8 a b) := by
  rcases write8_cases s a b with ⟨-, w, h⟩ | ⟨-, h⟩ | ⟨-, h⟩ | ⟨-, h⟩ | ⟨-, h⟩ <;> rw [h]
  · exact (logsGrow_warn s w).mono le_rfl (by omega)
  · exact (logsGrow_hostWrite s _ b).mono (by omega) le_rfl
  · exact (logsGrow_of_eq rfl rfl rfl).mono (by omega) (by omega)
  · have hflow : LogsGrow 0 0 s (s.flowWrite b) := logsGrow_of_eq (by simp) (by simp) (by simp)
    exact hflow.mono (by omega) (by omega)
  · exact (logsGrow_of_eq rfl rfl rfl).mono (by omega) (by omega)

theorem logsGrow_memRead (s : State) (a : Word) (wide : Bool) : LogsGrow 2 2 s (s.memRead a wide).2 := by
  cases wide
  · exact (logsGrow_read8 s _).mono (by omega) (by omega)
  · exact (logsGrow_read8 s _).trans (logsGrow_read8 _ _)

theorem logsGrow_memWrite (s : State) (a : Word) (wide : Bool) (v : Word) : LogsGrow 2 2 s (s.memWrite a wide v) := by
  cases wide
  · exact (logsGrow_write8 s _ _).mono (by omega) (by omega)
  · exact (logsGrow_write8 s _ _).trans (logsGrow_write8 _ _ _)

/-- The operand is warned of once, above two pushes (R68). -/
theorem logsGrow_pushWarnings {s t : State} {n : Nat} (hw : t.warnings = s.warnings ++ pushWarnings n)
    (hc : t.hostCalls = s.hostCalls) (ha : t.hostAnswers = s.hostAnswers) : LogsGrow 1 0 s t := by
  refine ⟨pushWarnings n, [], hw, ?_, by simp [hc], le_rfl, by simp [ha]⟩
  unfold pushWarnings
  split <;> simp

/-- The address of a fetch has 16 bits, so it makes no warning (R18). -/
theorem logsGrow_fetch (s : State) : LogsGrow 0 1 s s.fetch.2 := by
  rw [fetch_snd]
  exact (logsGrow_read8_of_lt s s.pc.isLt).trans
    (logsGrow_of_eq (State.counterUp_warnings _ 0) (State.counterUp_hostCalls _ 0) (State.counterUp_hostAnswers _ 0))

/-- An instruction warns of its operand, then makes at most two accesses. -/
theorem logsGrow_exec {i : Instr} {s t : State} (h : exec i s = .next t) : LogsGrow 3 2 s t := by
  cases i with
  | pushA data =>
    cases h
    exact (logsGrow_of_eq rfl rfl rfl).mono (by omega) (by omega)
  | aMovD data =>
    rw [exec_aMovD_eq] at h
    cases h
    exact LogsGrow.mono (w := 1) (c := 0) (logsGrow_pushWarnings (n := s.n) rfl rfl rfl) (by decide) (by decide)
  | asMovD data =>
    rw [exec_asMovD_eq] at h
    cases h
    have hready : LogsGrow 1 0 s (loadReady s data) := logsGrow_pushWarnings rfl rfl rfl
    exact (hready.trans (logsGrow_memRead _ _ _)).trans (logsGrow_of_eq rfl rfl rfl)
  | dMovAs data =>
    rw [exec_dMovAs_eq] at h
    cases h
    have hready : LogsGrow 1 0 s (storeReady s data) := logsGrow_pushWarnings rfl rfl rfl
    split
    · exact hready.mono (by omega) (by omega)
    · exact hready.trans (logsGrow_memWrite _ _ _ _)

theorem logsGrow_step {s t : State} (h : step s = .next t) : LogsGrow 3 3 s t :=
  ((logsGrow_fetch s).trans (logsGrow_exec h)).mono (by omega) (by omega)

/-- Settles O22: one access of the fetch, the operand's warning, and at most two accesses of the instruction. -/
theorem logsOnlyGrow : Obligations.LogsOnlyGrow := fun _ _ h => logsGrow_step h

/-! ### The frame-wait flag -/

theorem write8_keeps_fw {s : State} (a : Nat) (b : Byte) (hs : s.fw = true) : (s.write8 a b).fw = true := by
  rcases write8_cases s a b with ⟨-, w, h⟩ | ⟨-, h⟩ | ⟨-, h⟩ | ⟨-, h⟩ | ⟨-, h⟩ <;> rw [h]
  all_goals simp [hs]

theorem memWrite_keeps_fw {s : State} (a : Word) (wide : Bool) (v : Word) (hs : s.fw = true) :
    (s.memWrite a wide v).fw = true := by
  cases wide
  · exact write8_keeps_fw _ _ hs
  · exact write8_keeps_fw _ _ (write8_keeps_fw _ _ hs)

theorem exec_keeps_fw {i : Instr} {s t : State} (hs : s.fw = true) (h : exec i s = .next t) : t.fw = true := by
  cases i with
  | pushA data =>
    cases h
    exact hs
  | aMovD data =>
    rw [exec_aMovD_eq] at h
    cases h
    exact hs
  | asMovD data =>
    rw [exec_asMovD_eq] at h
    cases h
    exact (State.memRead_fw _ _ _).trans hs
  | dMovAs data =>
    rw [exec_dMovAs_eq] at h
    cases h
    have hready : (storeReady s data).fw = true := hs
    split
    · exact hready
    · exact memWrite_keeps_fw _ _ _ hready

/-- No step clears `fw` (R25). -/
theorem step_keeps_fw {s t : State} (hs : s.fw = true) (h : step s = .next t) : t.fw = true :=
  exec_keeps_fw ((State.fetch_fw s).trans hs) h

/-! ### The fetch reads neither `A` nor `fw`, and no instruction reads `fw` -/

/-- A state with another accumulator and another frame-wait flag, the two fields a fetch does not read. -/
def withAFw (s : State) (x : Word) (w : Bool) : State := { s with A := x, fw := w }

@[simp] theorem withAFw_config (s : State) (x : Word) (w : Bool) : (withAFw s x w).config = s.config := rfl

theorem armFrom_withAFw (s : State) (x : Word) (w : Bool) (b : Byte) :
    (withAFw s x w).armFrom b = withAFw (s.armFrom b) x (w || flowBit b s.config.fbFrameWait) := rfl

theorem read8_withAFw (s : State) (x : Word) (w : Bool) (a : Nat) :
    (withAFw s x w).read8 a = ((s.read8 a).1, withAFw (s.read8 a).2 x w) := by
  unfold State.read8
  split_ifs <;> rfl

theorem memRead_withAFw (s : State) (x : Word) (w : Bool) (a : Word) (wide : Bool) :
    (withAFw s x w).memRead a wide = ((s.memRead a wide).1, withAFw (s.memRead a wide).2 x w) := by
  cases wide <;> simp [State.memRead, read8_withAFw]

/-- A counter reads RAM alone. -/
theorem counterUp_ram_congr {s t : State} (h : s.ram = t.ram) (i : Nat) :
    (s.counterUp i).ram = (t.counterUp i).ram := by
  have hbyte := State.ramByte_congr h
  rw [counterUp_eq_ite, counterUp_eq_ite, hbyte i, hbyte (i + 1)]
  split <;> simp [h]

theorem counterDown_ram_congr {s t : State} (h : s.ram = t.ram) (i : Nat) :
    (s.counterDown i).ram = (t.counterDown i).ram := by
  have hbyte := State.ramByte_congr h
  rw [counterDown_eq_ite, counterDown_eq_ite, hbyte i, hbyte (i + 1)]
  split <;> simp [h]

theorem counterUp_withAFw (s : State) (x : Word) (w : Bool) (i : Nat) :
    (withAFw s x w).counterUp i = withAFw (s.counterUp i) x w := by
  rw [State.counterUp_eq (withAFw s x w), counterUp_ram_congr (s := withAFw s x w) (t := s) rfl, State.counterUp_eq s]
  rfl

theorem counterDown_withAFw (s : State) (x : Word) (w : Bool) (i : Nat) :
    (withAFw s x w).counterDown i = withAFw (s.counterDown i) x w := by
  rw [State.counterDown_eq (withAFw s x w), counterDown_ram_congr (s := withAFw s x w) (t := s) rfl,
    State.counterDown_eq s]
  rfl

theorem ite_withAFw (s t : State) (x : Word) (w p : Bool) :
    (if p then withAFw s x w else withAFw t x w) = withAFw (if p then s else t) x w := by
  cases p <;> rfl

/-- The fetch is the same whatever `A` and `fw` hold, and it leaves both. -/
theorem fetch_withAFw (s : State) (x : Word) (w : Bool) :
    (withAFw s x w).fetch = (s.fetch.1, withAFw s.fetch.2 x w) := by
  have hpc : (withAFw s x w).pc = s.pc := State.pc_congr rfl
  simp only [State.fetch, hpc, read8_withAFw, counterUp_withAFw]

theorem flowCounters_withAFw (s : State) (x : Word) (w : Bool) (b : Byte) :
    (withAFw s x w).flowCounters b = withAFw (s.flowCounters b) x w := by
  simp only [State.flowCounters, withAFw_config, counterDown_withAFw, ite_withAFw, counterUp_withAFw]

/-- What a write leaves in `fw` may depend on what was there; nothing else does. -/
theorem write8_withAFw (s : State) (x : Word) (w : Bool) (a : Nat) (b : Byte) :
    ∃ w', (withAFw s x w).write8 a b = withAFw (s.write8 a b) x w' := by
  by_cases hflow : a = 7
  · subst hflow
    rw [write8_flow, write8_flow, State.flowWrite, flowCounters_withAFw, armFrom_withAFw]
    exact ⟨_, rfl⟩
  · refine ⟨w, ?_⟩
    simp only [State.write8, if_neg hflow]
    split_ifs <;> rfl

theorem memWrite_withAFw (s : State) (x : Word) (w : Bool) (a : Word) (wide : Bool) (v : Word) :
    ∃ w', (withAFw s x w).memWrite a wide v = withAFw (s.memWrite a wide v) x w' := by
  obtain ⟨w₁, hlow⟩ := write8_withAFw s x w a.toNat (v.extractLsb' 0 8)
  cases wide
  · exact ⟨w₁, hlow⟩
  · simp only [State.memWrite, hlow, if_true]
    exact write8_withAFw _ _ _ _ _

/-- An instruction does the same whatever `fw` holds, but for what it leaves in `fw`. -/
theorem exec_withFw {i : Instr} {s t : State} (h : exec i s = .next t) (w : Bool) :
    ∃ w', exec i (withAFw s s.A w) = .next (withAFw t t.A w') := by
  cases i with
  | pushA data =>
    cases h
    exact ⟨w, rfl⟩
  | aMovD data =>
    rw [exec_aMovD_eq] at h
    cases h
    rw [exec_aMovD_eq]
    exact ⟨w, rfl⟩
  | asMovD data =>
    rw [exec_asMovD_eq] at h
    cases h
    have hready : loadReady (withAFw s s.A w) data = withAFw (loadReady s data) (finalValue s.A s.n data) w := rfl
    rw [exec_asMovD_eq, hready, memRead_withAFw, State.memRead_A]
    exact ⟨w, rfl⟩
  | dMovAs data =>
    rw [exec_dMovAs_eq] at h
    cases h
    have hready : storeReady (withAFw s s.A w) data = withAFw (storeReady s data) (finalValue s.A s.n data) w := rfl
    rw [exec_dMovAs_eq, hready]
    have hskip : (withAFw s s.A w).storeSkipped = s.storeSkipped := rfl
    rw [hskip]
    split
    · exact ⟨w, rfl⟩
    · obtain ⟨w', hstore⟩ := memWrite_withAFw (storeReady s data) (finalValue s.A s.n data) w
        (s.storeAddress (finalValue s.A s.n data)) s.f16 s.D
      refine ⟨w', ?_⟩
      rw [State.memWrite_A]
      exact congrArg Host.Outcome.next hstore

/-- A step does the same whatever `fw` holds, but for what it leaves in `fw`. -/
theorem step_withFw {s t : State} (h : step s = .next t) (w : Bool) :
    ∃ w', step { s with fw := w } = .next { t with fw := w' } := by
  have hs : ({ s with fw := w } : State) = withAFw s s.A w := rfl
  obtain ⟨w', hexec⟩ := exec_withFw h w
  rw [State.fetch_A] at hexec
  rw [hs, step_eq, fetch_withAFw, withAFw_config]
  dsimp only
  exact ⟨w', hexec⟩

/-- Settles O21: a step keeps `fw` when set; with `fw` set beforehand it does the same, and keeps that. -/
theorem frameWaitNeverRead : Obligations.FrameWaitNeverRead := by
  refine fun s t h => ⟨fun hs => step_keeps_fw hs h, fun _ => ?_⟩
  obtain ⟨w, hset⟩ := step_withFw h true
  have hw : w = true := step_keeps_fw (s := { s with fw := true }) rfl hset
  rw [hset, hw]

/-- The decoder's tests stand in the order of R66. -/
theorem exec_decodeByte (cfg : Config) (b : Byte) (u : State) :
    exec (decodeByte cfg b) u =
      if opField b = cfg.opcPushA then exec (.pushA (dataField b)) u
      else if opField b = cfg.opcAMovD then exec (.aMovD (dataField b)) u
      else if opField b = cfg.opcAsMovD then exec (.asMovD (dataField b)) u
      else exec (.dMovAs (dataField b)) u := by
  unfold decodeByte
  split_ifs <;> rfl

/-- Settles O17: the fetch by its definition, IP as a counter, and the decoder's tests as those of R66. -/
theorem stepRunsDecodedInstruction : Obligations.StepRunsDecodedInstruction := by
  intro s b u op data
  have hstep : step s = exec (decodeByte s.config b) u := by rw [step_eq, fetch_fst, fetch_snd]
  have hread : (s.read8 s.pc.toNat).2.ram = s.ram := State.read8_ram s _
  have hpc : u.pc = s.pc + 1 := (ramPair_counterUp _ 0).trans (congrArg (· + 1) (State.pc_congr hread))
  have hframe (a : Nat) (ha : 2 ≤ a) : u.ramByte a = s.ramByte a :=
    (State.ramByte_counterUp_of_ne _ (by omega) (by omega)).trans (State.ramByte_congr hread a)
  obtain ⟨t, ht⟩ := stepAlwaysCompletes s
  refine ⟨⟨hstep, trivial⟩, hstep.trans (exec_decodeByte _ _ _), hpc, hframe, t, ht, fun w => ?_⟩
  obtain ⟨w', hset⟩ := step_withFw ht w
  exact ⟨_, hset, rfl⟩

/-! ### The operand a sequence assembles -/

/-- At an even push count bits 11:6 are replaced (R67, D5). -/
theorem mergeChunk_even (A : Word) {n : Nat} (data : Chunk) (h : n % 2 = 0) :
    (mergeChunk A n data).extractLsb' 6 6 = data ∧
      (mergeChunk A n data).extractLsb' 12 4 = A.extractLsb' 12 4 ∧
      (mergeChunk A n data).extractLsb' 0 6 = A.extractLsb' 0 6 := by
  rw [mergeChunk, if_pos h]
  refine ⟨?_, ?_, extract_append_low _ _⟩
  · exact (extract_append_of_ge 0 _ _).trans (extract_append_low _ _)
  · exact (extract_append_of_ge 6 _ _).trans (extract_append_high _ _)

/-- At an odd push count bits 15:12 are replaced. -/
theorem mergeChunk_odd (A : Word) {n : Nat} (data : Chunk) (h : n % 2 = 1) :
    (mergeChunk A n data).extractLsb' 12 4 = data.extractLsb' 0 4 ∧
      (mergeChunk A n data).extractLsb' 6 6 = A.extractLsb' 6 6 ∧
      (mergeChunk A n data).extractLsb' 0 6 = A.extractLsb' 0 6 := by
  rw [mergeChunk, if_neg (by omega)]
  refine ⟨extract_append_high _ _, ?_, ?_⟩
  · rw [extract_append_of_le _ _ (by decide), extract_extract _ (by decide)]
  · rw [extract_append_of_le _ _ (by decide), extract_extract _ (by decide)]

/-- Settles O32, by the parity of the push count. -/
theorem pushAMergesByParity : Obligations.PushAMergesByParity := by
  intro s data
  refine ⟨_, exec_pushA s data, rfl, fun h => ?even, fun h => ?odd, ?low, rfl⟩
  case even =>
    obtain ⟨hmid, htop, -⟩ := mergeChunk_even s.A data h
    exact ⟨hmid, htop⟩
  case odd =>
    obtain ⟨htop, hmid, -⟩ := mergeChunk_odd s.A data h
    exact ⟨htop, hmid⟩
  case low =>
    rcases Nat.mod_two_eq_zero_or_one s.n with h | h
    · obtain ⟨-, -, hlow⟩ := mergeChunk_even s.A data h
      exact hlow
    · obtain ⟨-, -, hlow⟩ := mergeChunk_odd s.A data h
      exact hlow

theorem finalValue_zero (A : Word) (data : Chunk) : finalValue A 0 data = data.signExtend 16 := rfl

theorem finalValue_one (A : Word) (data : Chunk) :
    finalValue A 1 data = (A.extractLsb' 6 6 ++ data).signExtend 16 := rfl

theorem finalValue_of_two_le (A : Word) {n : Nat} (data : Chunk) (h : 2 ≤ n) :
    finalValue A n data = A.extractLsb' 6 10 ++ data := by
  rw [finalValue, if_neg (by omega), if_neg (by omega)]

/-- Settles O33, by the number of pushes. -/
theorem aMovDAssemblesLiteral : Obligations.AMovDAssemblesLiteral := by
  intro s data
  refine ⟨_, exec_aMovD_eq s data, fun h => ?none, fun h => ?one, fun h => ?more, rfl⟩
  case none => rw [h, finalValue_zero, BitVec.toInt_signExtend_of_le (by decide)]
  case one => rw [h, finalValue_one, BitVec.toInt_signExtend_of_le (by decide)]
  case more =>
    rw [finalValue_of_two_le _ _ h]
    exact ⟨extract_append_high _ _, extract_append_low _ _⟩

/-! ### Stale bits of the accumulator -/

/-- The bits a push wrote are all the bits of `A` the operand is made of. -/
theorem finalValue_congr {A A' : Word} {n : Nat} (data : Chunk)
    (hmid : 1 ≤ n → A.extractLsb' 6 6 = A'.extractLsb' 6 6)
    (htop : 2 ≤ n → A.extractLsb' 12 4 = A'.extractLsb' 12 4) : finalValue A n data = finalValue A' n data := by
  have hsplit (x : Word) : x.extractLsb' 6 10 = x.extractLsb' 12 4 ++ x.extractLsb' 6 6 :=
    (BitVec.extractLsb'_append_extractLsb'_eq_extractLsb' (len₁ := 6) (len₂ := 4) rfl).symm
  rcases n with _ | _ | n
  · rfl
  · rw [finalValue_one, finalValue_one, hmid (by omega)]
  · rw [finalValue_of_two_le _ _ (by omega), finalValue_of_two_le _ _ (by omega), hsplit, hsplit, hmid (by omega),
      htop (by omega)]

/-- A push keeps the agreement: the field it writes is equal after, the other was written before or is still stale. -/
theorem alikeButStaleA_pushA {s : State} {x : Word} (data : Chunk)
    (hmid : 1 ≤ s.n → s.A.extractLsb' 6 6 = x.extractLsb' 6 6)
    (htop : 2 ≤ s.n → s.A.extractLsb' 12 4 = x.extractLsb' 12 4) :
    AlikeButStaleA { s with A := mergeChunk s.A s.n data, n := s.n + 1 }
      { s with A := mergeChunk x s.n data, n := s.n + 1 } := by
  refine ⟨rfl, fun _ => ?mid, fun hn => ?top⟩
  all_goals rcases Nat.mod_two_eq_zero_or_one s.n with hpar | hpar
  case mid.inl =>
    obtain ⟨h, -, -⟩ := mergeChunk_even s.A data hpar
    obtain ⟨h', -, -⟩ := mergeChunk_even x data hpar
    exact h.trans h'.symm
  case mid.inr =>
    obtain ⟨-, h, -⟩ := mergeChunk_odd s.A data hpar
    obtain ⟨-, h', -⟩ := mergeChunk_odd x data hpar
    exact h.trans ((hmid (by omega)).trans h'.symm)
  case top.inl =>
    have hn' : 2 ≤ s.n := by
      dsimp only at hn
      omega
    obtain ⟨-, h, -⟩ := mergeChunk_even s.A data hpar
    obtain ⟨-, h', -⟩ := mergeChunk_even x data hpar
    exact h.trans ((htop hn').trans h'.symm)
  case top.inr =>
    obtain ⟨h, -, -⟩ := mergeChunk_odd s.A data hpar
    obtain ⟨h', -, -⟩ := mergeChunk_odd x data hpar
    exact h.trans h'.symm

theorem alikeButStaleA_refl (s : State) : AlikeButStaleA s s := ⟨rfl, fun _ => rfl, fun _ => rfl⟩

/-- A push keeps the agreement; every other instruction assembles one operand from both states, and ends in one state. -/
theorem exec_alikeButStaleA {i : Instr} {s t : State} {x : Word} (h : exec i s = .next t)
    (hmid : 1 ≤ s.n → s.A.extractLsb' 6 6 = x.extractLsb' 6 6)
    (htop : 2 ≤ s.n → s.A.extractLsb' 12 4 = x.extractLsb' 12 4) :
    ∃ t', exec i { s with A := x } = .next t' ∧ AlikeButStaleA t t' := by
  have hvalue (data : Chunk) : finalValue x s.n data = finalValue s.A s.n data :=
    (finalValue_congr data hmid htop).symm
  have hfinal (data : Chunk) : ({ s with A := x } : State).finalA data = s.finalA data := by
    rw [State.finalA_eq, State.finalA_eq]
    dsimp only
    rw [hvalue]
  cases i with
  | pushA data =>
    cases h
    exact ⟨_, exec_pushA _ data, alikeButStaleA_pushA data hmid htop⟩
  | aMovD data =>
    refine ⟨t, ?_, alikeButStaleA_refl t⟩
    rw [← h, exec_aMovD, exec_aMovD, hfinal, hvalue]
  | asMovD data =>
    refine ⟨t, ?_, alikeButStaleA_refl t⟩
    rw [← h, exec_asMovD, exec_asMovD, hfinal, hvalue]
    rfl
  | dMovAs data =>
    refine ⟨t, ?_, alikeButStaleA_refl t⟩
    rw [← h, exec_dMovAs, exec_dMovAs, hfinal, hvalue]
    rfl

/-- Settles O23: the fetch reads no bit of `A`, an instruction only the bits that pushes wrote. -/
theorem staleAccumulatorUnobservable : Obligations.StaleAccumulatorUnobservable := by
  rintro s s' t ⟨hs', hmid, htop⟩ h
  rw [← hs']
  have hA : ({ s with A := s'.A } : State) = withAFw s s'.A s.fetch.2.fw := by
    rw [State.fetch_fw]
    rfl
  rw [← State.fetch_n s, ← State.fetch_A s] at hmid htop
  obtain ⟨t', hexec, halike⟩ := exec_alikeButStaleA h hmid htop
  rw [hA, step_eq, fetch_withAFw, withAFw_config]
  dsimp only
  exact ⟨t', hexec, halike⟩

end Sys2Proof.Proofs
end

section
/-! PROOF. The two data moves with memory (R70, R71), region by region, and what they do to the flags (R72 to R78). -/

namespace Sys2Proof.Proofs

open Sys2Proof.Machine

/-! ### Loads -/

/-- The address an `AsMovD` loads from (R70). -/
def loadTarget (s : State) (data : Chunk) : Nat := (s.loadAddress (finalValue s.A s.n data)).toNat

theorem loadTarget_lt (s : State) (data : Chunk) : loadTarget s data < 0x10000 := BitVec.isLt _

theorem exec_asMovD_narrow {s : State} (data : Chunk) (h : s.f16 = false) :
    exec (.asMovD data) s =
      .next
        { ((loadReady s data).read8 (loadTarget s data)).2 with
          D := ((loadReady s data).read8 (loadTarget s data)).1.setWidth 16 } := by
  rw [exec_asMovD_eq, h]
  rfl

/-- Sixteen-wide, the low byte is read first. -/
theorem exec_asMovD_wide {s : State} (data : Chunk) (h : s.f16 = true) :
    exec (.asMovD data) s =
      .next
        { (((loadReady s data).read8 (loadTarget s data)).2.read8 (loadTarget s data + 1)).2 with
          D := (((loadReady s data).read8 (loadTarget s data)).2.read8 (loadTarget s data + 1)).1 ++
            ((loadReady s data).read8 (loadTarget s data)).1 } := by
  rw [exec_asMovD_eq, h]
  rfl

/-- Settles O34, by the width of the access. -/
theorem asMovDLoads : Obligations.AsMovDLoads := by
  intro s data v ea u lo hi
  cases h : s.f16 with
  | false => exact exec_asMovD_narrow data h
  | true => exact exec_asMovD_wide data h

/-- A read that does not call the host answers the byte that stands there, and warns above the map. -/
theorem read8_of_notIo (s : State) {a : Nat} (h : NotIo a) :
    s.read8 a = (s.peek a, if 0x10000 ≤ a then s.warn (.outOfRangeRead a) else s) := by
  by_cases hrom : 0x8000 ≤ a
  · simp only [State.read8, State.peek, if_pos hrom]
    split_ifs <;> rfl
  · have hout : ¬ 0x10000 ≤ a := by omega
    have hio : ¬ 0x4000 ≤ a := by omega
    simp only [State.read8, State.peek, if_neg hout, if_neg hrom, if_neg hio]
    split_ifs <;> rfl

theorem peek_loadReady (s : State) (data : Chunk) (a : Nat) : (loadReady s data).peek a = s.peek a := rfl

/-- A narrow load, when the answer of its read is known. -/
theorem exec_asMovD_of_read {s u : State} {data : Chunk} {b : Byte} (h : s.f16 = false)
    (hlo : (loadReady s data).read8 (loadTarget s data) = (b, u)) :
    exec (.asMovD data) s = .next { u with D := b.setWidth 16 } := by
  rw [exec_asMovD_narrow data h, hlo]

/-- A sixteen-wide load, when the answers of its two reads are known. -/
theorem exec_asMovD_of_reads {s u w : State} {data : Chunk} {b c : Byte} (h : s.f16 = true)
    (hlo : (loadReady s data).read8 (loadTarget s data) = (b, u))
    (hhi : u.read8 (loadTarget s data + 1) = (c, w)) :
    exec (.asMovD data) s = .next { w with D := c ++ b } := by
  rw [exec_asMovD_wide data h, hlo, hhi]

/-- Settles O35: no byte is the host's, and what the instruction does before it reads changes no byte; only the second
address can lie above the map. -/
theorem asMovDLoadsCoreMemory : Obligations.AsMovDLoadsCoreMemory := by
  intro s data v ea hlow hhigh
  have hea : ea < 0x10000 := loadTarget_lt s data
  have hlo : (loadReady s data).read8 ea = (s.peek ea, loadReady s data) := by
    rw [read8_of_notIo _ hlow, if_neg (by omega), peek_loadReady]
  cases h : s.f16 with
  | false => exact ⟨_, exec_asMovD_of_read h hlo, rfl, (List.append_nil _).symm, rfl⟩
  | true =>
    have hhi := read8_of_notIo (loadReady s data) (hhigh h)
    by_cases hend : ea = 0xFFFF
    · rw [if_pos (by omega)] at hhi
      refine ⟨_, exec_asMovD_of_reads h hlo hhi, rfl, ?_, rfl⟩
      rw [if_pos ⟨rfl, hend⟩, hend]
      rfl
    · rw [if_neg (by omega)] at hhi
      refine ⟨_, exec_asMovD_of_reads h hlo hhi, rfl, ?_, rfl⟩
      rw [if_neg fun hc => hend hc.2, List.append_nil]
      rfl

/-- Settles O36: each byte in the region is the host's next answer, the other one stands in RAM or ROM. -/
theorem asMovDLoadsFromHost : Obligations.AsMovDLoadsFromHost := by
  intro s data v ea r b₀ b₁ u
  refine ⟨fun h hio => ?narrow, fun h hio hio' => ?wide, fun h hea => ?ramThenHost, fun h hea => ?hostThenRom⟩
  case narrow => exact exec_asMovD_of_read h (read8_io _ hio)
  case wide =>
    rw [exec_asMovD_of_reads h (read8_io _ hio) (read8_io _ hio')]
    simp only [List.append_assoc, List.singleton_append]
    rfl
  case ramThenHost =>
    have htarget : loadTarget s data = 0x3FFF := hea
    have hlo : (loadReady s data).read8 (loadTarget s data) = (s.ramByte 0x3FFF, loadReady s data) := by
      rw [htarget, read8_ram _ (by omega) (by omega) (by omega)]
      rfl
    have hhi := read8_io (loadReady s data) (a := loadTarget s data + 1) ⟨by omega, by omega⟩
    rw [exec_asMovD_of_reads h hlo hhi, htarget]
    rfl
  case hostThenRom =>
    have htarget : loadTarget s data = 0x7FFF := hea
    have hlo := read8_io (loadReady s data) (a := loadTarget s data) ⟨by omega, by omega⟩
    have hhi := read8_rom ((loadReady s data).hostRead (ioAddress (loadTarget s data))).2
      (a := loadTarget s data + 1) (by omega) (by omega)
    rw [exec_asMovD_of_reads h hlo hhi, htarget]
    rfl

/-! ### Stores -/

/-- The address a `DMovAs` stores to, when it does (R71). -/
def storeTarget (s : State) (data : Chunk) : Nat := (s.storeAddress (finalValue s.A s.n data)).toNat

theorem storeTarget_lt (s : State) (data : Chunk) : storeTarget s data < 0x10000 := BitVec.isLt _

theorem exec_dMovAs_skipped {s : State} (data : Chunk) (h : s.storeSkipped = true) :
    exec (.dMovAs data) s = .next (storeReady s data) := by
  rw [exec_dMovAs_eq, if_pos h]

theorem exec_dMovAs_narrow {s : State} (data : Chunk) (h : s.storeSkipped = false) (hf : s.f16 = false) :
    exec (.dMovAs data) s = .next ((storeReady s data).write8 (storeTarget s data) (s.D.extractLsb' 0 8)) := by
  rw [exec_dMovAs_eq, h, hf]
  rfl

/-- Sixteen-wide, the low byte is written first. -/
theorem exec_dMovAs_wide {s : State} (data : Chunk) (h : s.storeSkipped = false) (hf : s.f16 = true) :
    exec (.dMovAs data) s =
      .next (((storeReady s data).write8 (storeTarget s data) (s.D.extractLsb' 0 8)).write8 (storeTarget s data + 1)
        (s.D.extractLsb' 8 8)) := by
  rw [exec_dMovAs_eq, h, hf]
  rfl

theorem storedAddresses_narrow {s : State} (data : Chunk) (h : s.storeSkipped = false) (hf : s.f16 = false) :
    s.storedAddresses data = [storeTarget s data] := by
  rw [State.storedAddresses, h, hf]
  rfl

theorem storedAddresses_wide {s : State} (data : Chunk) (h : s.storeSkipped = false) (hf : s.f16 = true) :
    s.storedAddresses data = [storeTarget s data, storeTarget s data + 1] := by
  rw [State.storedAddresses, h, hf]
  rfl

/-- Inhibit-if-zero tests the whole of Loop (R71, D25). -/
theorem storeSkipped_iff (s : State) : s.storeSkipped = true ↔ s.finh = true ∧ s.loop = 0 := by
  have hloop : s.loop = 0 ↔ s.ramByte 2 = 0 ∧ s.ramByte 3 = 0 := by
    have hpair : (s.ramPair 2).toNat = (s.ramByte 3).toNat * 256 + (s.ramByte 2).toNat := toNat_ramPair s 2
    rw [State.loop]
    bv_omega
  rw [hloop, State.storeSkipped, Bool.and_eq_true, Bool.and_eq_true, beq_iff_eq, beq_iff_eq]

/-- Settles O37: skipped, narrow, or sixteen-wide. -/
theorem dMovAsStores : Obligations.DMovAsStores := by
  intro s data v ea u
  cases hskip : s.storeSkipped with
  | true => rw [if_pos ((storeSkipped_iff s).mp hskip), exec_dMovAs_skipped data hskip]; rfl
  | false =>
    have hnot : ¬ (s.finh = true ∧ s.loop = 0) := fun h => by
      rw [(storeSkipped_iff s).mpr h] at hskip
      cases hskip
    rw [if_neg hnot]
    cases hf : s.f16 with
    | false => exact exec_dMovAs_narrow data hskip hf
    | true => exact exec_dMovAs_wide data hskip hf

/-- Settles O40. -/
theorem inhibitedStoreOnlyClearsFlags : Obligations.InhibitedStoreOnlyClearsFlags := fun s data hfinh hloop =>
  exec_dMovAs_skipped data ((storeSkipped_iff s).mpr ⟨hfinh, hloop⟩)

/-! ### What one written byte leaves unchanged -/

/-- A write changes no RAM byte but its own and, when it writes Flow, Loop and Indirect. -/
theorem ramByte_write8_of_ne (s : State) {a x : Nat} (b : Byte) (h : x ≠ a) (hflow : a = 7 → x < 2 ∨ 5 < x) :
    (s.write8 a b).ramByte x = s.ramByte x := by
  rcases write8_cases s a b with ⟨-, w, hw⟩ | ⟨-, hw⟩ | ⟨-, hw⟩ | ⟨ha, hw⟩ | ⟨-, hw⟩ <;> rw [hw]
  · rfl
  · rfl
  · exact ramByte_flowWrite_of_ne s b (hflow ha)
  · exact State.ramByte_setRam_of_ne s b h.symm

/-- Only a write to Flow arms a flag or sets `fw`. -/
theorem write8_flags_of_ne_seven (s : State) {a : Nat} (b : Byte) (h : a ≠ 7) :
    (s.write8 a b).f16 = s.f16 ∧ (s.write8 a b).fli = s.fli ∧ (s.write8 a b).fsi = s.fsi ∧
      (s.write8 a b).finh = s.finh ∧ (s.write8 a b).fw = s.fw := by
  rcases write8_cases s a b with ⟨-, w, hw⟩ | ⟨-, hw⟩ | ⟨-, hw⟩ | ⟨ha, -⟩ | ⟨-, hw⟩
  case inr.inr.inr.inl => exact absurd ha h
  all_goals
    rw [hw]
    exact ⟨rfl, rfl, rfl, rfl, rfl⟩

/-- No write disarms load-indirect. -/
theorem write8_keeps_fli (s : State) (a : Nat) (b : Byte) (h : s.fli = true) : (s.write8 a b).fli = true := by
  by_cases ha : a = 7
  · subst ha
    rw [write8_flow, flowWrite_fli, h, Bool.true_or]
  · obtain ⟨-, hfli, -⟩ := write8_flags_of_ne_seven s b ha
    exact hfli.trans h

/-- Settles O38: nothing stored, one byte, or two. -/
theorem dMovAsFrame : Obligations.DMovAsFrame := by
  intro s data
  cases hskip : s.storeSkipped with
  | true =>
    exact ⟨_, exec_dMovAs_skipped data hskip, rfl, rfl, rfl, rfl, rfl, id, fun _ _ _ => rfl, fun _ => ⟨rfl, rfl⟩⟩
  | false =>
    cases hf : s.f16 with
    | false =>
      rw [storedAddresses_narrow data hskip hf]
      refine ⟨_, exec_dMovAs_narrow data hskip hf, State.write8_n _ _ _, State.write8_D _ _ _, State.write8_rom _ _ _,
        State.write8_config _ _ _, State.write8_hostAnswers _ _ _, fun h => write8_keeps_fli _ _ _ h,
        fun x hx hflow => ?_, fun h => absurd h (List.cons_ne_nil _ _)⟩
      simp only [List.mem_singleton] at hx hflow
      exact ramByte_write8_of_ne _ _ hx fun h => hflow h.symm
    | true =>
      rw [storedAddresses_wide data hskip hf]
      refine ⟨_, exec_dMovAs_wide data hskip hf, by simp [storeReady], by simp [storeReady], by simp [storeReady],
        by simp [storeReady], by simp [storeReady], fun h => write8_keeps_fli _ _ _ (write8_keeps_fli _ _ _ h),
        fun x hx hflow => ?_, fun h => absurd h (List.cons_ne_nil _ _)⟩
      simp only [List.mem_cons, List.not_mem_nil, or_false, not_or] at hx hflow
      obtain ⟨hlo, hhi⟩ := hx
      rw [ramByte_write8_of_ne _ _ hhi fun h => hflow (.inr h.symm),
        ramByte_write8_of_ne _ _ hlo fun h => hflow (.inl h.symm)]
      rfl

/-! ### Stores to plain RAM -/

/-- A narrow store to RAM outside the views sets one byte. -/
theorem exec_dMovAs_ram_narrow {s : State} {data : Chunk} (hskip : s.storeSkipped = false) (hf : s.f16 = false)
    (hlow : storeTarget s data < 0x4000) (h6 : storeTarget s data ≠ 6) (h7 : storeTarget s data ≠ 7) :
    exec (.dMovAs data) s = .next ((storeReady s data).setRam (storeTarget s data) (s.D.extractLsb' 0 8)) := by
  rw [exec_dMovAs_narrow data hskip hf, write8_ram _ _ hlow h6 h7]

/-- A sixteen-wide store to RAM outside the views sets two bytes. -/
theorem exec_dMovAs_ram_wide {s : State} {data : Chunk} (hskip : s.storeSkipped = false) (hf : s.f16 = true)
    (hhigh : storeTarget s data + 1 < 0x4000) (h : storeTarget s data < 5 ∨ 7 < storeTarget s data) :
    exec (.dMovAs data) s =
      .next (((storeReady s data).setRam (storeTarget s data) (s.D.extractLsb' 0 8)).setRam (storeTarget s data + 1)
        (s.D.extractLsb' 8 8)) := by
  rw [exec_dMovAs_wide data hskip hf, write8_ram _ _ hhigh (by omega) (by omega),
    write8_ram _ _ (by omega) (by omega) (by omega)]

theorem ramByte_storeReady (s : State) (data : Chunk) (x : Nat) : (storeReady s data).ramByte x = s.ramByte x := rfl

/-- Two bytes set one after the other: each address reads its own, every other one what it read before. -/
theorem ramByte_setRam_setRam (s : State) (a : Nat) (b c : Byte) (x : Nat) :
    ((s.setRam a b).setRam (a + 1) c).ramByte x = if x = a + 1 then c else if x = a then b else s.ramByte x := by
  simp only [State.ramByte_setRam, eq_comm]

/-- Settles O39, by the width of the store. -/
theorem dMovAsStoresPlainRam : Obligations.DMovAsStoresPlainRam := by
  intro s data ea hskip hlow hhigh hwide
  have hea : ea = storeTarget s data := rfl
  clear_value ea
  subst hea
  cases hf : s.f16 with
  | false =>
    rw [storedAddresses_narrow data hskip hf]
    refine ⟨_, exec_dMovAs_ram_narrow hskip hf hhigh (by omega) (by omega), State.ramByte_setRam_same _ _ _, nofun,
      fun x hx => ?_, rfl⟩
    exact State.ramByte_setRam_of_ne _ _ fun h => hx (List.mem_singleton.mpr h.symm)
  | true =>
    rw [storedAddresses_wide data hskip hf]
    refine ⟨_, exec_dMovAs_ram_wide hskip hf (hwide hf) (.inr hlow), ?_, fun _ => State.ramByte_setRam_same _ _ _,
      fun x hx => ?_, rfl⟩
    · rw [ramByte_setRam_setRam, if_neg (Nat.ne_add_one _), if_pos rfl]
    · simp only [List.mem_cons, List.not_mem_nil, or_false, not_or] at hx
      obtain ⟨hlo, hhi⟩ := hx
      rw [ramByte_setRam_setRam, if_neg hhi, if_neg hlo, ramByte_storeReady]

/-- Settles O44: what the store set at IP's address the fetch reads there, and IP itself lies below. -/
theorem storedByteIsFetchedNext : Obligations.StoredByteIsFetchedNext := by
  intro s data ea hskip hf hlow hhigh hip
  have hea : ea = storeTarget s data := rfl
  clear_value ea
  subst hea
  refine ⟨_, exec_dMovAs_ram_narrow hskip hf hhigh (by omega) (by omega), ?_⟩
  have hpc := pc_setRam_of_ge (storeReady s data) (i := storeTarget s data) (s.D.extractLsb' 0 8) (by omega)
  have hready : (storeReady s data).pc = s.pc := State.pc_congr rfl
  rw [fetch_fst, hpc, hready, hip, read8_ram _ hhigh (by omega) (by omega), State.ramByte_setRam_same]

/-- IP by its two bytes. -/
theorem pc_of_bytes {s : State} {low high : Byte} (h0 : s.ramByte 0 = low) (h1 : s.ramByte 1 = high) :
    s.pc = high ++ low := by
  rw [State.pc, State.ramPair, h0, h1]

/-- Settles O43: IP is RAM bytes 0 and 1, so the one or two writes are read back in it. -/
theorem storeToIpTransfersControl : Obligations.StoreToIpTransfersControl := by
  intro s data ea hskip hip
  have hea : ea = storeTarget s data := rfl
  clear_value ea
  subst hea
  have hpcLow : s.pc.extractLsb' 0 8 = s.ramByte 0 := extract_append_low _ _
  have hpcHigh : s.pc.extractLsb' 8 8 = s.ramByte 1 := extract_append_high _ _
  cases hf : s.f16 with
  | false =>
    rw [storedAddresses_narrow data hskip hf]
    refine ⟨_, exec_dMovAs_ram_narrow hskip hf (by omega) (by omega) (by omega), rfl, nofun, fun _ h0 => ?zero,
      fun _ h1 => ?one, nofun, fun x hx => ?frame, rfl⟩
    case zero =>
      rw [h0, hpcHigh]
      exact pc_of_bytes (State.ramByte_setRam_same _ _ _) (State.ramByte_setRam_of_ne _ _ (by decide))
    case one =>
      rw [h1, hpcLow]
      exact pc_of_bytes (State.ramByte_setRam_of_ne _ _ (by decide)) (State.ramByte_setRam_same _ _ _)
    case frame => exact State.ramByte_setRam_of_ne _ _ fun h => hx (List.mem_singleton.mpr h.symm)
  | true =>
    rw [storedAddresses_wide data hskip hf]
    refine ⟨_, exec_dMovAs_ram_wide hskip hf (by omega) (by omega), rfl, fun _ h0 => ?zero, nofun, nofun,
      fun _ h1 => ⟨?one, ?loop⟩, fun x hx => ?frame, rfl⟩
    case zero =>
      rw [h0]
      exact (pc_of_bytes (ramByte_setRam_setRam _ 0 _ _ 0) (ramByte_setRam_setRam _ 0 _ _ 1)).trans (word_split s.D)
    case one =>
      rw [h1, hpcLow]
      exact pc_of_bytes (ramByte_setRam_setRam _ 1 _ _ 0) (ramByte_setRam_setRam _ 1 _ _ 1)
    case loop =>
      rw [h1]
      exact ramByte_setRam_setRam _ 1 _ _ 2
    case frame =>
      simp only [List.mem_cons, List.not_mem_nil, or_false, not_or] at hx
      obtain ⟨hlo, hhi⟩ := hx
      rw [ramByte_setRam_setRam, if_neg hhi, if_neg hlo, ramByte_storeReady]

/-! ### Stores to ROM and to the host -/

/-- Settles O41: each byte is dropped with its warning; only the second address can lie above the map. -/
theorem storeToRomIsDropped : Obligations.StoreToRomIsDropped := by
  intro s data ea hskip hrom
  have hlt := storeTarget_lt s data
  have hea : ea = storeTarget s data := rfl
  clear_value ea
  subst hea
  cases hf : s.f16 with
  | false =>
    rw [exec_dMovAs_narrow data hskip hf, write8_rom _ _ hrom hlt, if_pos rfl, List.append_nil]
    rfl
  | true =>
    rw [exec_dMovAs_wide data hskip hf, write8_rom _ _ hrom hlt, if_neg (by decide)]
    by_cases hend : storeTarget s data = 0xFFFF
    · rw [write8_outOfRange _ _ (by omega), if_pos hend, hend]
      rfl
    · rw [write8_rom _ _ (by omega) (by omega), if_neg hend]
      rfl

/-- Settles O42: each byte obeys its own region. -/
theorem storeToHost : Obligations.StoreToHost := by
  intro s data v ea r lo hi u hskip
  have htarget : storeTarget s data = ea := rfl
  refine ⟨fun hf hio => ?narrow, fun hf hio hio' => ?wide, fun hf hea => ?ramThenHost, fun hf hea => ?hostThenRom⟩
  case narrow =>
    rw [exec_dMovAs_narrow data hskip hf, write8_io _ _ (htarget ▸ hio)]
    rfl
  case wide =>
    rw [exec_dMovAs_wide data hskip hf, htarget, write8_io _ _ hio', write8_io _ _ hio]
    simp only [State.hostWrite, List.append_assoc, List.singleton_append]
    rfl
  case ramThenHost =>
    rw [exec_dMovAs_wide data hskip hf, htarget, hea, write8_io _ _ (by decide),
      write8_ram _ _ (by decide) (by decide) (by decide)]
    exact ⟨_, rfl, State.ramByte_setRam_same _ _ _, fun x hx => State.ramByte_setRam_of_ne _ _ hx.symm, rfl⟩
  case hostThenRom =>
    rw [exec_dMovAs_wide data hskip hf, htarget, hea, write8_rom _ _ (by decide) (by decide), write8_io _ _ (by decide)]
    rfl

/-! ### Stores to Flow -/

/-- The three stores that write Flow: at 7 with the low byte, the high one going to RAM byte 8 when sixteen-wide, or at 6
with the high byte, the low one going nowhere. Whichever it is, the state after differs from that of the `FlowWrite` in
RAM alone, and there above the window. -/
theorem exec_dMovAs_flow {s : State} {data : Chunk} (hskip : s.storeSkipped = false)
    (h : storeTarget s data = 7 ∨ storeTarget s data = 6 ∧ s.f16 = true) :
    ∃ t b u, exec (.dMovAs data) s = .next t ∧
      b = (if storeTarget s data = 7 then s.D.extractLsb' 0 8 else s.D.extractLsb' 8 8) ∧
      u = (storeReady s data).flowWrite b ∧ t = { u with ram := t.ram } ∧
      (∀ x, x < 8 → t.ramByte x = u.ramByte x) ∧
      (storeTarget s data = 7 → s.f16 = true → t.ramByte 8 = s.D.extractLsb' 8 8) := by
  rcases h with h7 | ⟨h6, hf⟩
  · rw [h7, if_pos rfl]
    cases hf : s.f16 with
    | false =>
      have hexec := exec_dMovAs_narrow data hskip hf
      rw [h7, write8_flow] at hexec
      exact ⟨_, _, _, hexec, rfl, rfl, rfl, fun _ _ => rfl, nofun⟩
    | true =>
      have hexec := exec_dMovAs_wide data hskip hf
      rw [h7, write8_flow, write8_ram _ _ (by decide) (by decide) (by decide)] at hexec
      exact ⟨_, _, _, hexec, rfl, rfl, rfl, fun x hx => State.ramByte_setRam_of_ne _ _ (by omega),
        fun _ _ => State.ramByte_setRam_same _ _ _⟩
  · have hexec := exec_dMovAs_wide data hskip hf
    rw [h6, write8_nandView, write8_flow] at hexec
    rw [h6, if_neg (by decide)]
    exact ⟨_, _, _, hexec, rfl, rfl, rfl, fun _ _ => rfl, nofun⟩

/-- Settles O45: the flags were used up before the byte is written, so those armed after it are the byte's. -/
theorem flowStoreArmsNextInstruction : Obligations.FlowStoreArmsNextInstruction := by
  intro s data ea b bit one hskip h
  obtain ⟨t, b', u, hexec, hb, rfl, hframe, hwindow, h8⟩ := exec_dMovAs_flow hskip h
  obtain rfl : b = b' := hb.symm
  have hloop : t.loop = ((storeReady s data).flowWrite b).loop :=
    ramPair_congr_bytes (hwindow 2 (by decide)) (hwindow 3 (by decide))
  have hind : t.ind = ((storeReady s data).flowWrite b).ind :=
    ramPair_congr_bytes (hwindow 4 (by decide)) (hwindow 5 (by decide))
  rw [loop_flowWrite] at hloop
  rw [ind_flowWrite] at hind
  have hip {x : Nat} (hx : x < 2) : t.ramByte x = s.ramByte x :=
    (hwindow x (by omega)).trans (ramByte_flowWrite_of_ne _ b (.inl hx))
  refine ⟨t, hexec, hloop, hind, ?_, ?_, ?_, ?_, ?_, h8, hip (by decide), hip (by decide), ?_, ?_⟩
  all_goals
    rw [hframe]
    simp [storeReady, bit]

/-! ### Which instruction uses up which flag -/

/-- A push and a literal touch no flag (R73, D8). -/
theorem exec_pushA_flags {s t : State} {data : Chunk} (h : exec (.pushA data) s = .next t) :
    t.f16 = s.f16 ∧ t.fli = s.fli ∧ t.fsi = s.fsi ∧ t.finh = s.finh ∧ t.fw = s.fw := by
  cases h
  exact ⟨rfl, rfl, rfl, rfl, rfl⟩

theorem exec_aMovD_flags {s t : State} {data : Chunk} (h : exec (.aMovD data) s = .next t) :
    t.f16 = s.f16 ∧ t.fli = s.fli ∧ t.fsi = s.fsi ∧ t.finh = s.finh ∧ t.fw = s.fw := by
  rw [exec_aMovD_eq] at h
  cases h
  exact ⟨rfl, rfl, rfl, rfl, rfl⟩

/-- A load uses up `f16` and `fli`. -/
theorem exec_asMovD_flags {s t : State} {data : Chunk} (h : exec (.asMovD data) s = .next t) :
    t.f16 = false ∧ t.fli = false ∧ t.fsi = s.fsi ∧ t.finh = s.finh ∧ t.fw = s.fw := by
  rw [exec_asMovD_eq] at h
  cases h
  exact ⟨State.memRead_f16 _ _ _, State.memRead_fli _ _ _, State.memRead_fsi _ _ _, State.memRead_finh _ _ _,
    State.memRead_fw _ _ _⟩

/-- A store uses up `f16`, `fsi` and `finh`, and what it writes arms nothing unless it is Flow. -/
theorem exec_dMovAs_flags {s t : State} {data : Chunk} (h : exec (.dMovAs data) s = .next t)
    (hflow : 7 ∉ s.storedAddresses data) :
    t.f16 = false ∧ t.fli = s.fli ∧ t.fsi = false ∧ t.finh = false ∧ t.fw = s.fw := by
  cases hskip : s.storeSkipped with
  | true =>
    rw [exec_dMovAs_skipped data hskip] at h
    cases h
    exact ⟨rfl, rfl, rfl, rfl, rfl⟩
  | false =>
    cases hf : s.f16 with
    | false =>
      rw [exec_dMovAs_narrow data hskip hf] at h
      rw [storedAddresses_narrow data hskip hf, List.mem_singleton] at hflow
      cases h
      exact write8_flags_of_ne_seven (storeReady s data) _ (Ne.symm hflow)
    | true =>
      rw [exec_dMovAs_wide data hskip hf] at h
      rw [storedAddresses_wide data hskip hf] at hflow
      simp only [List.mem_cons, List.not_mem_nil, or_false, not_or] at hflow
      obtain ⟨hlo, hhi⟩ := hflow
      cases h
      obtain ⟨h16, hli, hsi, hinh, hfw⟩ := write8_flags_of_ne_seven
        ((storeReady s data).write8 (storeTarget s data) (s.D.extractLsb' 0 8)) (s.D.extractLsb' 8 8) (Ne.symm hhi)
      obtain ⟨h16', hli', hsi', hinh', hfw'⟩ :=
        write8_flags_of_ne_seven (storeReady s data) (s.D.extractLsb' 0 8) (Ne.symm hlo)
      exact ⟨h16.trans h16', hli.trans hli', hsi.trans hsi', hinh.trans hinh', hfw.trans hfw'⟩

/-- Settles O46, row by row of R73's table. -/
theorem flagConsumptionTable : Obligations.FlagConsumptionTable := by
  refine fun s t data => ⟨fun h => ?_, fun h => ?_, fun h hflow => ?_⟩
  · rcases h with h | h
    · obtain ⟨h16, hli, hsi, hinh, -⟩ := exec_pushA_flags h
      exact ⟨h16, hli, hsi, hinh⟩
    · obtain ⟨h16, hli, hsi, hinh, -⟩ := exec_aMovD_flags h
      exact ⟨h16, hli, hsi, hinh⟩
  · obtain ⟨h16, hli, hsi, hinh, -⟩ := exec_asMovD_flags h
    exact ⟨h16, hli, hsi, hinh⟩
  · obtain ⟨h16, hli, hsi, hinh, -⟩ := exec_dMovAs_flags h hflow
    exact ⟨h16, hli, hsi, hinh⟩

/-- Settles O47: without a Flow write each flag is as before or used up. -/
theorem onlyFlowWritesArm : Obligations.OnlyFlowWritesArm := by
  intro i s t h hflow
  cases i with
  | pushA data =>
    obtain ⟨h16, hli, hsi, hinh, hfw⟩ := exec_pushA_flags h
    exact ⟨h16 ▸ id, hli ▸ id, hsi ▸ id, hinh ▸ id, hfw⟩
  | aMovD data =>
    obtain ⟨h16, hli, hsi, hinh, hfw⟩ := exec_aMovD_flags h
    exact ⟨h16 ▸ id, hli ▸ id, hsi ▸ id, hinh ▸ id, hfw⟩
  | asMovD data =>
    obtain ⟨h16, hli, hsi, hinh, hfw⟩ := exec_asMovD_flags h
    simp [h16, hli, hsi, hinh, hfw]
  | dMovAs data =>
    obtain ⟨h16, hli, hsi, hinh, hfw⟩ := exec_dMovAs_flags h hflow
    simp [h16, hli, hsi, hinh, hfw]

/-- Settles O48: what the move itself does not use up was clear by the premise. -/
theorem disciplinedMovesClearEveryFlag : Obligations.DisciplinedMovesClearEveryFlag := by
  refine fun s t data => ⟨fun hread h => ?load, fun hread h hflow => ?store⟩
  case load =>
    obtain ⟨hfsi, hfinh⟩ := hread
    obtain ⟨h16, hli, hsi, hinh, -⟩ := exec_asMovD_flags h
    exact ⟨h16, hli, hsi.trans hfsi, hinh.trans hfinh⟩
  case store =>
    obtain ⟨h16, hli, hsi, hinh, -⟩ := exec_dMovAs_flags h hflow
    exact ⟨h16, hli.trans hread, hsi, hinh⟩

end Sys2Proof.Proofs
end

section
/-! PROOF. Runs of several steps: self-loops (R120), the host's frame (R105), and the sequence that spells a value (R60). -/

namespace Sys2Proof.Proofs

open Sys2Proof.Machine

/-! ### Runs -/

theorem runs_add (j m : Nat) (s u : State) : Runs (j + m) s u ↔ ∃ t, Runs j s t ∧ Runs m t u := by
  induction j generalizing s with
  | zero => simp only [Nat.zero_add, runs_zero, exists_eq_left']
  | succ j ih =>
    simp only [Nat.succ_add, runs_succ, ih]
    constructor
    · rintro ⟨v, hstep, t, hj, hm⟩
      exact ⟨t, ⟨v, hstep, hj⟩, hm⟩
    · rintro ⟨t, ⟨v, hstep, hj⟩, hm⟩
      exact ⟨v, hstep, t, hj, hm⟩

theorem runs_one (s t : State) : Runs 1 s t ↔ step s = .next t := by
  simp only [runs_succ, runs_zero, exists_eq_right]

/-- A run ends in one state. -/
theorem runs_unique {k : Nat} {s t u : State} (h : Runs k s t) (h' : Runs k s u) : t = u :=
  Host.Outcome.next.inj (h.symm.trans h')

/-! ### Self-loops -/

/-- Along a run the logs grow and `fw` stays set. -/
theorem runs_monotone {k : Nat} {s t : State} (h : Runs k s t) :
    LogsGrow (3 * k) (3 * k) s t ∧ (s.fw = true → t.fw = true) := by
  induction k generalizing s with
  | zero =>
    obtain rfl := (runs_zero s t).mp h
    exact ⟨logsGrow_of_eq rfl rfl rfl, id⟩
  | succ k ih =>
    obtain ⟨u, hstep, hrest⟩ := (runs_succ k s t).mp h
    obtain ⟨hlogs, hfw⟩ := ih hrest
    exact ⟨((logsGrow_step hstep).trans hlogs).mono (by omega) (by omega), fun hs => hfw (step_keeps_fw hs hstep)⟩

/-- Logs that grow from `s` to `t` and back have not grown at all. -/
theorem logs_eq_of_grow_back {w w' c c' : Nat} {s t : State} (h : LogsGrow w c s t) (h' : LogsGrow w' c' t s) :
    t.warnings = s.warnings ∧ t.hostCalls = s.hostCalls := by
  obtain ⟨ws, cs, hw, -, hc, -, -⟩ := h
  obtain ⟨ws', cs', hw', -, hc', -, -⟩ := h'
  constructor
  · have hback : s.warnings = s.warnings ++ (ws ++ ws') := by rw [← List.append_assoc, ← hw, ← hw']
    obtain ⟨rfl, -⟩ := List.append_eq_nil_iff.mp (List.self_eq_append_right.mp hback)
    rw [hw, List.append_nil]
  · have hback : s.hostCalls = s.hostCalls ++ (cs ++ cs') := by rw [← List.append_assoc, ← hc, ← hc']
    obtain ⟨rfl, -⟩ := List.append_eq_nil_iff.mp (List.self_eq_append_right.mp hback)
    rw [hc, List.append_nil]

/-- Settles O24: from every state of the loop the rest of the loop leads back to the start. -/
theorem selfLoopIsSilent : Obligations.SelfLoopIsSilent := by
  intro s t k j hloop hj hrun
  obtain ⟨m, rfl⟩ := Nat.exists_eq_add_of_le hj
  obtain ⟨t', hrun', hback⟩ := (runs_add j m s s).mp hloop
  obtain rfl := runs_unique hrun hrun'
  obtain ⟨hlogs, hfw⟩ := runs_monotone hrun
  obtain ⟨hlogs', hfw'⟩ := runs_monotone hback
  obtain ⟨hwarnings, hcalls⟩ := logs_eq_of_grow_back hlogs hlogs'
  exact ⟨hwarnings, hcalls, Bool.eq_iff_iff.mpr ⟨hfw', hfw⟩⟩

/-! ### The host's frame -/

theorem runFrame_succ {s t : State} (k : Nat) (h : step s = .next t) :
    runFrame (k + 1) s = if s.fw then .next s else runFrame k t := by
  rw [runFrame, h]

/-- Settles O49, by induction on the bound: the frame stops at once, or steps and is a frame of the rest. -/
theorem frameStopsAtFrameWait : Obligations.FrameStopsAtFrameWait := by
  intro k
  induction k with
  | zero =>
    exact fun s => ⟨s, 0, rfl, le_rfl, (runs_zero s s).mpr rfl, fun h => absurd h (Nat.lt_irrefl 0),
      fun i _ hi => absurd hi (Nat.not_lt_zero i)⟩
  | succ k ih =>
    intro s
    obtain ⟨u, hstep⟩ := stepAlwaysCompletes s
    rw [runFrame_succ k hstep]
    cases hfw : s.fw with
    | true =>
      exact ⟨s, 0, rfl, Nat.zero_le _, (runs_zero s s).mpr rfl, fun _ => hfw,
        fun i _ hi => absurd hi (Nat.not_lt_zero i)⟩
    | false =>
      obtain ⟨t, j, hframe, hj, hrun, hstop, hbefore⟩ := ih u
      refine ⟨t, j + 1, hframe, by omega, (runs_succ j s t).mpr ⟨u, hstep, hrun⟩, fun h => hstop (by omega), ?_⟩
      intro i v hi hv
      cases i with
      | zero =>
        obtain rfl := (runs_zero s v).mp hv
        exact hfw
      | succ i =>
        obtain ⟨u', hstep', hv'⟩ := (runs_succ i s v).mp hv
        obtain rfl := Host.Outcome.next.inj (hstep.symm.trans hstep')
        exact hbefore i v (by omega) hv'

/-! ### The pushes of an encoded value -/

/-- The chunks of a value that become pushes: all but the last, which is bits 5:0. -/
def pushChunks (v : Word) : List Chunk :=
  if -32 ≤ v.toInt ∧ v.toInt ≤ 31 then []
  else if -2048 ≤ v.toInt ∧ v.toInt ≤ 2047 then [v.extractLsb' 6 6]
  else [v.extractLsb' 6 6, (v.extractLsb' 12 4).setWidth 6]

theorem chunks_eq_pushChunks (v : Word) : chunks v = pushChunks v ++ [v.extractLsb' 0 6] := by
  rw [chunks_eq, pushChunks]
  split_ifs <;> rfl

theorem chunkLength_eq (v : Word) : chunkLength v = (pushChunks v).length + 1 := by
  rw [chunkLength, chunks_eq_pushChunks, List.length_append, List.length_singleton]

/-- The instructions a value is spelled by: pushes, then one instruction of the opcode. -/
def spelling (op : MoveOp) (v : Word) : List Instr :=
  (pushChunks v).map Instr.pushA ++ [op.instr (v.extractLsb' 0 6)]

/-- The Instruction Builder emits the bytes of these instructions (R58). -/
theorem encodeValue_eq_spelling (cfg : Config) (op : MoveOp) (v : Word) :
    encodeValue cfg op v = (spelling op v).map (encodeByte cfg) := by
  rw [encodeValue, chunks_eq_pushChunks, buildRawInstructions_concat, spelling, List.map_append, List.map_map]
  cases op <;> rfl

/-- What a list of pushes makes of `A`. -/
def mergeChunks (A : Word) (n : Nat) : List Chunk → Word
  | [] => A
  | c :: cs => mergeChunks (mergeChunk A n c) (n + 1) cs

/-- Pushes change `A` and the push count alone. -/
theorem execAll_pushes (cs : List Chunk) (s : State) :
    execAll (cs.map Instr.pushA) s = .next { s with A := mergeChunks s.A s.n cs, n := s.n + cs.length } := by
  induction cs generalizing s with
  | nil => rfl
  | cons c cs ih =>
    rw [List.map_cons, execAll, exec_pushA]
    dsimp only
    rw [ih, List.length_cons, Nat.add_assoc, Nat.add_comm 1]
    rfl

/-- Two pushes from count 0 spell bits 15:6. -/
theorem extract_mergeChunks_two (A : Word) (mid top : Chunk) :
    (mergeChunks A 0 [mid, top]).extractLsb' 6 10 = top.extractLsb' 0 4 ++ mid := by
  obtain ⟨hmid, -, -⟩ := mergeChunk_even A mid (n := 0) rfl
  obtain ⟨htop', hmid', -⟩ := mergeChunk_odd (mergeChunk A 0 mid) top (n := 1) rfl
  have hsplit := BitVec.extractLsb'_append_extractLsb'_eq_extractLsb' (start₁ := 6) (len₁ := 6) (len₂ := 4)
    (x := mergeChunks A 0 [mid, top]) rfl
  rw [← hsplit]
  exact congrArg₂ (· ++ ·) htop' (hmid'.trans hmid)

/-- A value of a signed range is the sign extension of its low bits. -/
theorem signExtend_low {w : Nat} (hw : w ≤ 16) {v : Word} (hlow : -2 ^ w ≤ 2 * v.toInt) (hhigh : 2 * v.toInt < 2 ^ w) :
    (v.extractLsb' 0 w).signExtend 16 = v := by
  obtain ⟨d, rfl⟩ := (exists_signExtend_eq_iff hw v).mpr ⟨hlow, hhigh⟩
  congr 1
  ext i hi
  have hi' : i < 16 := by omega
  simp [BitVec.getElem_signExtend, hi, hi']

/-- `FinalA` reads back what the pushes of an encoded value and its last chunk spell (R60). -/
theorem finalValue_pushChunks (A v : Word) :
    finalValue (mergeChunks A 0 (pushChunks v)) (pushChunks v).length (v.extractLsb' 0 6) = v := by
  unfold pushChunks
  split_ifs with hone htwo
  · exact signExtend_low (by decide) (by omega) (by omega)
  · obtain ⟨hmid, -, -⟩ := mergeChunk_even A (v.extractLsb' 6 6) (n := 0) rfl
    have hsplit : v.extractLsb' 6 6 ++ v.extractLsb' 0 6 = v.extractLsb' 0 12 :=
      BitVec.extractLsb'_append_extractLsb'_eq_extractLsb' rfl
    refine (finalValue_one _ _).trans ?_
    rw [mergeChunks, mergeChunks, hmid, hsplit]
    exact signExtend_low (by decide) (by omega) (by omega)
  · have htop : ((v.extractLsb' 12 4).setWidth 6).extractLsb' 0 4 = v.extractLsb' 12 4 := by
      ext i hi
      have hi' : i < 6 := by omega
      simp [hi, hi']
    have hhigh : v.extractLsb' 12 4 ++ v.extractLsb' 6 6 = v.extractLsb' 6 10 :=
      BitVec.extractLsb'_append_extractLsb'_eq_extractLsb' (len₁ := 6) rfl
    refine (finalValue_of_two_le _ _ le_rfl).trans ?_
    rw [extract_mergeChunks_two, htop, hhigh]
    exact BitVec.extractLsb'_append_extractLsb' (w := 10) (len := 6)

theorem length_pushChunks_le_two (v : Word) : (pushChunks v).length ≤ 2 := by
  have h := chunkLength_le_three v
  rw [chunkLength_eq] at h
  omega

theorem pushWarnings_of_le_two {n : Nat} (h : n ≤ 2) : pushWarnings n = [] := if_neg (by omega)

/-- Settles O11: the decoder reads the spelling back, the pushes merge its chunks, and at most two of them warn of
nothing. -/
theorem finalAReturnsEncodedValue : Obligations.FinalAReturnsEncodedValue := by
  intro s op v hdistinct hn
  refine ⟨(pushChunks v).map Instr.pushA, v.extractLsb' 0 6, _, ?decoded, execAll_pushes _ s, ?final⟩
  case decoded =>
    rw [encodeValue_eq_spelling, List.map_map]
    exact (List.map_congr_left fun i _ => decodeByte_encodeByte hdistinct i).trans (List.map_id _)
  case final =>
    rw [finalA_eq_pushWarnings]
    dsimp only
    rw [hn, Nat.zero_add, finalValue_pushChunks, pushWarnings_of_le_two (length_pushChunks_le_two v), List.append_nil,
      ← hn]

/-! ### Steps in ROM -/

/-- A step whose instruction byte stands in ROM: IP is advanced, and the instruction runs. -/
theorem step_of_romByte {s : State} {i : Instr} (hdistinct : s.config.OpcodesDistinct) (hpc : 0x8000 ≤ s.pc.toNat)
    (hbyte : s.romByte (s.pc.toNat - 0x8000) = encodeByte s.config i) : step s = exec i (s.counterUp 0) := by
  have hread := read8_rom s hpc s.pc.isLt
  rw [step_eq, fetch_fst, fetch_snd, hread, hbyte]
  dsimp only
  rw [decodeByte_encodeByte hdistinct]

theorem romHolds_low {s : State} {a : Nat} {bytes : List Byte} (h : s.RomHolds a bytes) : 0x8000 ≤ a := h.1

/-- A byte that stands in ROM has an address of 16 bits. -/
theorem romHolds_lt {s : State} {a : Nat} {b : Byte} {bytes : List Byte} (h : s.RomHolds a (b :: bytes)) :
    a < 0x10000 := by
  obtain ⟨-, hhigh, -⟩ := h
  rw [List.length_cons] at hhigh
  omega

/-- The bytes after the first stand from the next address on. -/
theorem romHolds_cons {s : State} {a : Nat} {b : Byte} {bytes : List Byte} (h : s.RomHolds a (b :: bytes)) :
    s.romByte (a - 0x8000) = b ∧ (bytes ≠ [] → s.RomHolds (a + 1) bytes) := by
  obtain ⟨hlow, hhigh, hbytes⟩ := h
  rw [List.length_cons] at hhigh
  have hfirst := hbytes 0 (Nat.succ_pos _)
  rw [Nat.add_zero, List.getElem_cons_zero] at hfirst
  refine ⟨hfirst, fun hne => ?_⟩
  have hpos := List.length_pos_of_ne_nil hne
  refine ⟨by omega, by omega, fun k hk => ?_⟩
  have hnext := hbytes (k + 1) (by rw [List.length_cons]; omega)
  rw [List.getElem_cons_succ] at hnext
  have hindex : a + 1 - 0x8000 + k = a - 0x8000 + (k + 1) := by omega
  rw [hindex, hnext]

/-- What ROM holds depends on ROM alone. -/
theorem romHolds_congr {s t : State} {a : Nat} {bytes : List Byte} (hrom : t.rom = s.rom) (h : s.RomHolds a bytes) :
    t.RomHolds a bytes := by
  obtain ⟨hlow, hhigh, hbytes⟩ := h
  exact ⟨hlow, hhigh, fun k hk => (State.romByte_congr hrom _).trans (hbytes k hk)⟩

/-- A counter leaves all but RAM, and in RAM all but its pair: what the fetch does to IP. -/
theorem pc_ramByte_of_counterUp {s t : State} (h : t.ram = (s.counterUp 0).ram) :
    t.pc = s.pc + 1 ∧ ∀ a, 2 ≤ a → t.ramByte a = s.ramByte a :=
  ⟨(State.pc_congr h).trans (ramPair_counterUp s 0), fun a ha =>
    (State.ramByte_congr h a).trans (State.ramByte_counterUp_of_ne s (by omega) (by omega))⟩

theorem step_pushA_in_rom {s : State} {c : Chunk} (hdistinct : s.config.OpcodesDistinct) (hpc : 0x8000 ≤ s.pc.toNat)
    (hbyte : s.romByte (s.pc.toNat - 0x8000) = encodeByte s.config (.pushA c)) :
    step s = .next { s with A := mergeChunk s.A s.n c, n := s.n + 1, ram := (s.counterUp 0).ram } := by
  rw [step_of_romByte hdistinct hpc hbyte, exec_pushA, State.counterUp_eq]

theorem step_aMovD_in_rom {s : State} {data : Chunk} (hdistinct : s.config.OpcodesDistinct)
    (hpc : 0x8000 ≤ s.pc.toNat) (hbyte : s.romByte (s.pc.toNat - 0x8000) = encodeByte s.config (.aMovD data)) :
    step s =
      .next
        { s with
          A := finalValue s.A s.n data, D := finalValue s.A s.n data, n := 0, ram := (s.counterUp 0).ram
          warnings := s.warnings ++ pushWarnings s.n } := by
  rw [step_of_romByte hdistinct hpc hbyte, exec_aMovD_eq, State.counterUp_eq]

/-- Stepping through pushes and a literal in ROM, from any push count: each push merges its chunk, the literal assembles the
operand, and IP counts the bytes. -/
theorem runs_pushes_then_literal (cs : List Chunk) (last : Chunk) (s : State) (hdistinct : s.config.OpcodesDistinct)
    (hrom : s.RomHolds s.pc.toNat ((cs.map Instr.pushA ++ [Instr.aMovD last]).map (encodeByte s.config))) :
    ∃ t, Runs (cs.length + 1) s t ∧ t.pc = s.pc + BitVec.ofNat 16 (cs.length + 1) ∧
      (∀ a, 2 ≤ a → t.ramByte a = s.ramByte a) ∧
      t = { s with
        A := finalValue (mergeChunks s.A s.n cs) (s.n + cs.length) last, n := 0
        D := finalValue (mergeChunks s.A s.n cs) (s.n + cs.length) last
        ram := t.ram, warnings := s.warnings ++ pushWarnings (s.n + cs.length) } := by
  induction cs generalizing s with
  | nil =>
    have hlow := romHolds_low hrom
    obtain ⟨hbyte, -⟩ := romHolds_cons hrom
    have hstep := step_aMovD_in_rom hdistinct hlow hbyte
    generalize hu :
      ({ s with
        A := finalValue s.A s.n last, D := finalValue s.A s.n last, n := 0, ram := (s.counterUp 0).ram
        warnings := s.warnings ++ pushWarnings s.n } : State) = u at hstep
    obtain ⟨hpc, hframe⟩ := pc_ramByte_of_counterUp (s := s) (t := u) (by rw [← hu])
    exact ⟨u, (runs_one _ _).mpr hstep, hpc, hframe, by subst hu; rfl⟩
  | cons c cs ih =>
    have hlow := romHolds_low hrom
    obtain ⟨hbyte, hrest⟩ := romHolds_cons hrom
    have hrest := hrest (by simp)
    have hstep := step_pushA_in_rom hdistinct hlow hbyte
    generalize hu :
      ({ s with A := mergeChunk s.A s.n c, n := s.n + 1, ram := (s.counterUp 0).ram } : State) = u at hstep
    obtain ⟨hpc, hframe⟩ := pc_ramByte_of_counterUp (s := s) (t := u) (by rw [← hu])
    have hnext : u.pc.toNat = s.pc.toNat + 1 := by
      have hlt : s.pc.toNat + 1 < 0x10000 := by
        cases cs <;> exact romHolds_lt hrest
      rw [hpc]
      bv_omega
    have hrom' : u.RomHolds u.pc.toNat ((cs.map Instr.pushA ++ [Instr.aMovD last]).map (encodeByte u.config)) := by
      rw [hnext, ← hu]
      exact romHolds_congr rfl hrest
    obtain ⟨t, hrun, hpc', hframe', ht⟩ := ih u (hu ▸ hdistinct) hrom'
    refine ⟨t, (runs_succ _ _ _).mpr ⟨u, hstep, hrun⟩, ?_, fun a ha => (hframe' a ha).trans (hframe a ha), ?_⟩
    · rw [hpc', hpc, List.length_cons, BitVec.ofNat_add (cs.length + 1) 1, BitVec.add_assoc, BitVec.add_comm 1]
      rfl
    · subst hu
      have hcount : s.n + 1 + cs.length = s.n + (c :: cs).length := by
        rw [List.length_cons]
        omega
      rw [← hcount]
      exact ht

/-- Settles O12: the spelling of the value is its pushes and a literal, and they spell it from push count 0. -/
theorem encodedLiteralRunsInRom : Obligations.EncodedLiteralRunsInRom := by
  intro s v hdistinct hn hrom
  rw [encodeValue_eq_spelling] at hrom
  obtain ⟨t, hrun, hpc, hframe, ht⟩ := runs_pushes_then_literal (pushChunks v) (v.extractLsb' 0 6) s hdistinct hrom
  rw [hn, Nat.zero_add, finalValue_pushChunks, pushWarnings_of_le_two (length_pushChunks_le_two v),
    List.append_nil] at ht
  have hA : t.A = v := by rw [ht]
  rw [chunkLength_eq]
  refine ⟨t, hrun, by rw [ht], by rw [ht], hpc, hframe, ?_⟩
  rw [hA, hn]
  exact ht

/-! ### The two-byte self-loop -/

theorem step_dMovAs_in_rom {s : State} {data : Chunk} (hdistinct : s.config.OpcodesDistinct)
    (hpc : 0x8000 ≤ s.pc.toNat) (hbyte : s.romByte (s.pc.toNat - 0x8000) = encodeByte s.config (.dMovAs data)) :
    step s = exec (.dMovAs data) { s with ram := (s.counterUp 0).ram } := by
  rw [step_of_romByte hdistinct hpc hbyte, State.counterUp_eq]

/-- `DMovAs 0` with nothing armed and no push made writes the low byte of `D` to the low byte of IP (R72). -/
theorem exec_dMovAs_zero_unarmed {s : State} (h : s.Unarmed) (hn : s.n = 0) :
    exec (.dMovAs 0) s =
      .next { s with A := 0, ram := Memory.set s.ram 0 (s.D.extractLsb' 0 8) } := by
  obtain ⟨hf, hfli, hfsi, hfinh⟩ := h
  have hzero : finalValue s.A s.n 0 = 0 := by rw [hn, finalValue_zero]; rfl
  have hskip : s.storeSkipped = false := by rw [State.storeSkipped, hfinh, Bool.false_and]
  have htarget : storeTarget s 0 = 0 := by rw [storeTarget, State.storeAddress, hfsi, hzero]; rfl
  rw [exec_dMovAs_ram_narrow hskip hf (by omega) (by omega) (by omega), htarget, storeReady, hzero, hn,
    pushWarnings_of_le_two (Nat.zero_le 2), List.append_nil]
  simp [State.setRam, hf, hfsi, hfinh]

/-- Two canonical RAMs that agree on IP and on every byte above it are equal. -/
theorem ram_eq_of_pc_eq {s t : State} (hs : s.WellFormed) (ht : t.WellFormed) (hpc : t.pc = s.pc)
    (h : ∀ a, 2 ≤ a → t.ramByte a = s.ramByte a) : t.ram = s.ram := by
  have low (u : State) : u.ramByte 0 = u.pc.extractLsb' 0 8 := (extract_append_low _ _).symm
  have high (u : State) : u.ramByte 1 = u.pc.extractLsb' 8 8 := (extract_append_high _ _).symm
  obtain ⟨⟨hs, -⟩, -⟩ := hs
  obtain ⟨⟨ht, -⟩, -⟩ := ht
  refine Memory.ext_of_wf ht hs fun a => ?_
  change t.ramByte a = s.ramByte a
  match a with
  | 0 => rw [low, low, hpc]
  | 1 => rw [high, high, hpc]
  | a + 2 => exact h _ (Nat.le_add_left 2 a)

/-- IP advanced by two and given its low byte back is where it was, if advancing did not carry. -/
theorem pc_of_low_byte_restored {s t : State} {p : Word} (hadvanced : s.pc = p + 2) (hlow : p.toNat % 256 < 254)
    (h0 : (t.ramByte 0).toNat = p.toNat % 256) (h1 : t.ramByte 1 = s.ramByte 1) : t.pc = p := by
  have hs : s.pc.toNat = (s.ramByte 1).toNat * 256 + (s.ramByte 0).toNat := toNat_ramPair s 0
  have ht : t.pc.toNat = (t.ramByte 1).toNat * 256 + (t.ramByte 0).toNat := toNat_ramPair t 0
  have hbyte := (s.ramByte 0).isLt
  apply BitVec.eq_of_toNat_eq
  rw [ht, h0, h1]
  rw [hadvanced] at hs
  bv_omega

/-- Two steps through `AMovD k; DMovAs 0` at an address of low byte `k` change `A` and `D` alone. -/
theorem runs_two_byte_idiom {s : State} {k : Chunk} (hdistinct : s.config.OpcodesDistinct) (hwf : s.WellFormed)
    (harmed : s.Unarmed) (hn : s.n = 0) (hk : k.toNat < 32) (hlow : s.pc.toNat % 256 = k.toNat)
    (hrom : s.RomHolds s.pc.toNat [encodeByte s.config (.aMovD k), encodeByte s.config (.dMovAs 0)]) :
    Runs 2 s { s with A := 0, D := k.setWidth 16 } := by
  have hip := romHolds_low hrom
  obtain ⟨hbyte₁, hrest⟩ := romHolds_cons hrom
  have hlt := romHolds_lt (hrest (by simp))
  obtain ⟨hbyte₂, -⟩ := romHolds_cons (hrest (by simp))
  have hvalue : finalValue s.A s.n k = k.setWidth 16 := by
    rw [hn, finalValue_zero, BitVec.signExtend_eq_setWidth_of_msb_false]
    rw [msb_chunk, decide_eq_false_iff_not]
    omega
  have hstep₁ := step_aMovD_in_rom hdistinct hip hbyte₁
  rw [hvalue, hn, pushWarnings_of_le_two (Nat.zero_le 2), List.append_nil] at hstep₁
  generalize hu :
    ({ s with A := k.setWidth 16, D := k.setWidth 16, n := 0, ram := (s.counterUp 0).ram } : State) = u at hstep₁
  obtain ⟨hpc₁, hframe₁⟩ := pc_ramByte_of_counterUp (s := s) (t := u) (by rw [← hu])
  have hip₁ : u.pc.toNat = s.pc.toNat + 1 := by
    rw [hpc₁]
    bv_omega
  have hstep₂ := step_dMovAs_in_rom (s := u) (data := 0) (by rwa [← hu]) (by omega) (by rw [hip₁, ← hu]; exact hbyte₂)
  generalize hv : ({ u with ram := (u.counterUp 0).ram } : State) = v at hstep₂
  obtain ⟨hpc₂, hframe₂⟩ := pc_ramByte_of_counterUp (s := u) (t := v) (by rw [← hv])
  rw [exec_dMovAs_zero_unarmed (by rwa [← hv, ← hu]) (by rw [← hv, ← hu])] at hstep₂
  generalize ht : ({ v with A := 0, ram := Memory.set v.ram 0 (v.D.extractLsb' 0 8) } : State) = t at hstep₂
  have hbyte (a : Nat) : t.ramByte a = if 0 = a then v.D.extractLsb' 0 8 else v.ramByte a := by
    rw [← ht]
    exact Memory.get_set _ _ _ _
  have hlowByte : (t.ramByte 0).toNat = s.pc.toNat % 256 := by
    rw [hbyte 0, if_pos rfl, ← hv, ← hu, hlow]
    simp only [BitVec.extractLsb'_toNat, BitVec.toNat_setWidth, Nat.shiftRight_zero]
    omega
  have hadvanced : v.pc = s.pc + 2 := by
    rw [hpc₂, hpc₁, BitVec.add_assoc]
    rfl
  have hpc : t.pc = s.pc := pc_of_low_byte_restored hadvanced (by omega) hlowByte (hbyte 1)
  have hframe (a : Nat) (ha : 2 ≤ a) : t.ramByte a = s.ramByte a := by
    rw [hbyte a, if_neg (by omega), hframe₂ a ha, hframe₁ a ha]
  have hram : t.ram = s.ram :=
    ram_eq_of_pc_eq hwf (stepKeepsWellFormed u t (stepKeepsWellFormed s u hwf hstep₁) hstep₂) hpc hframe
  have hsame : t = { s with A := 0, D := k.setWidth 16, n := 0, ram := t.ram } := by rw [← ht, ← hv, ← hu]
  rw [hram, ← hn] at hsame
  rw [← hsame]
  exact (runs_succ 1 s t).mpr ⟨u, hstep₁, (runs_one u t).mpr hstep₂⟩

/-- Settles O25: after one pass nothing of the state is left to change. -/
theorem twoByteIdiomSelfLoops : Obligations.TwoByteIdiomSelfLoops := by
  intro s k hdistinct hwf harmed hn hk hlow hrom
  have henter := runs_two_byte_idiom hdistinct hwf harmed hn hk hlow hrom
  generalize ht : ({ s with A := 0, D := k.setWidth 16 } : State) = t at henter
  have hpc : t.pc = s.pc := State.pc_congr (by rw [← ht])
  have hloop : Runs 2 t { t with A := 0, D := k.setWidth 16 } := by
    subst ht
    rw [← hpc] at hlow hrom
    exact runs_two_byte_idiom hdistinct hwf harmed hn hk hlow (romHolds_congr rfl hrom)
  have hsame : ({ t with A := 0, D := k.setWidth 16 } : State) = t := by rw [← ht]
  rw [hsame] at hloop
  exact ⟨t, henter, hpc, by rw [← ht], hloop, 2, by decide, hloop⟩

end Sys2Proof.Proofs
end

section
/-! PROOF. The assembler: duplicate labels (R92), the image (R87), the booted ROM (R49), and the spacing of references
against their emission (R86, R90). -/

namespace Sys2Proof.Proofs

open Sys2Proof.Machine

/-! ### Duplicate labels -/

/-- A list with a repetition has a first one. -/
theorem firstDuplicate_of_not_nodup {names : List String} (h : ¬ names.Nodup) :
    ∃ name, firstDuplicate names = some name ∧ 2 ≤ names.count name := by
  induction names with
  | nil => exact absurd List.nodup_nil h
  | cons x names ih =>
    by_cases hx : x ∈ names
    · have hpos := List.count_pos_iff.mpr hx
      refine ⟨x, by rw [firstDuplicate, if_pos hx], ?_⟩
      rw [List.count_cons_self]
      omega
    · obtain ⟨name, hfirst, hcount⟩ := ih fun hnodup => h (List.nodup_cons.mpr ⟨hx, hnodup⟩)
      exact ⟨name, by rw [firstDuplicate, if_neg hx, hfirst], hcount.trans List.count_le_count_cons⟩

/-- Settles O53: the search for a repetition comes before the passes. -/
theorem duplicateLabelRefused : Obligations.DuplicateLabelRefused := by
  intro cfg tree h
  obtain ⟨name, hfirst, hcount⟩ := firstDuplicate_of_not_nodup h
  exact ⟨name, by rw [assemble, assembleLeaves, hfirst], hcount⟩

/-! ### The image -/

/-- The first byte of a list that is written stands at the origin; the later ones are written above it. -/
theorem get_emitBytes (image : Memory) (org : Nat) (bytes : List Byte) (a : Nat) :
    Memory.get (emitBytes image org bytes) a =
      if h : org ≤ a ∧ a < org + bytes.length then bytes[a - org] else Memory.get image a := by
  induction bytes generalizing image org with
  | nil =>
    rw [dif_neg (by rw [List.length_nil]; omega)]
    rfl
  | cons b bytes ih =>
    rw [emitBytes, ih]
    by_cases hlater : org + 1 ≤ a ∧ a < org + 1 + bytes.length
    · have hrange : org ≤ a ∧ a < org + (b :: bytes).length := by
        rw [List.length_cons]
        omega
      have hindex : a - org = a - (org + 1) + 1 := by omega
      rw [dif_pos hlater, dif_pos hrange]
      simp only [hindex, List.getElem_cons_succ]
    · rw [dif_neg hlater]
      by_cases hfirst : org = a
      · subst hfirst
        rw [dif_pos ⟨le_rfl, by rw [List.length_cons]; omega⟩, Memory.get_set_same]
        simp only [Nat.sub_self, List.getElem_cons_zero]
      · rw [dif_neg (by rw [List.length_cons]; omega), Memory.get_set_of_ne _ _ hfirst]

/-- Settles O55. -/
theorem emittedBytesStand : Obligations.EmittedBytesStand := get_emitBytes

/-- The canonical form of an image, and that it lists no address at or above `bound`. -/
def ImageBelow (bound : Nat) (image : Memory) : Prop := Memory.wf image ∧ ∀ c ∈ image, c.1 < bound

theorem emitBytes_below {bound org : Nat} {image : Memory} {bytes : List Byte} (h : ImageBelow bound image)
    (hfits : bytes.length = 0 ∨ org + bytes.length ≤ bound) : ImageBelow bound (emitBytes image org bytes) := by
  induction bytes generalizing image org with
  | nil => exact h
  | cons b bytes ih =>
    rw [List.length_cons] at hfits
    obtain ⟨hwf, hbelow⟩ := h
    refine ih ⟨Memory.wf_set hwf org b, fun c hc => ?_⟩ (by omega)
    rcases Memory.mem_set hc with hc | rfl
    · exact hbelow c hc
    · show org < bound
      omega

/-- Pass 3 writes only where the origin counter could advance. -/
theorem emitLeaf_below {cfg : Config} {t : LabelTable} {org o : Nat} {image im : Memory} {l : Leaf}
    (h : ImageBelow 0x10000 image) (hemit : emitLeaf cfg t org image l = .ok (o, im)) : ImageBelow 0x10000 im := by
  rw [emitLeaf_eq_ok] at hemit
  cases l with
  | atOrigin a =>
    obtain ⟨-, rfl⟩ := hemit
    exact h
  | rawData bytes =>
    obtain ⟨hadvance, rfl⟩ := hemit
    obtain ⟨-, hfits⟩ := advance_eq_ok.mp hadvance
    exact emitBytes_below h hfits
  | atLabel name =>
    obtain ⟨-, rfl⟩ := hemit
    exact h
  | descriptor op x =>
    obtain ⟨v, -, hadvance, rfl⟩ := hemit
    obtain ⟨-, hfits⟩ := advance_eq_ok.mp hadvance
    rw [← length_encodeValue cfg op v] at hfits
    exact emitBytes_below h hfits

theorem pass3_below {cfg : Config} {t : LabelTable} {ls : List Leaf} {org o : Nat} {image im : Memory}
    (h : ImageBelow 0x10000 image) (hpass : pass3 cfg t ls org image = .ok (o, im)) : ImageBelow 0x10000 im := by
  induction ls generalizing org image with
  | nil =>
    cases hpass
    exact h
  | cons l ls ih =>
    obtain ⟨o', im', hleaf, hrest⟩ := pass3_cons_eq_ok.mp hpass
    exact ih (emitLeaf_below h hleaf) hrest

/-- An image is what pass 3 leaves. -/
theorem pass3_of_assembleLeaves_ok {cfg : Config} {ls : List Leaf} {image : Memory}
    (h : assembleLeaves cfg ls = .ok image) : ∃ t e, pass3 cfg t ls 0 [] = .ok (e, image) := by
  rw [assembleLeaves] at h
  split at h
  · cases h
  · obtain ⟨⟨o, t⟩, -, hrest⟩ := bind_eq_ok.mp h
    obtain ⟨⟨e, im⟩, hpass, hpure⟩ := bind_eq_ok.mp hrest
    cases hpure
    exact ⟨t, e, hpass⟩

/-- Settles O54: the empty image is canonical, and pass 3 keeps it so and below 0x10000. -/
theorem imageFitsAddressSpace : Obligations.ImageFitsAddressSpace := by
  intro cfg tree image h
  obtain ⟨t, e, hpass⟩ := pass3_of_assembleLeaves_ok h
  exact pass3_below ⟨Memory.wf_nil, nofun⟩ hpass

/-! ### The booted ROM -/

theorem pass3_append_eq_ok {cfg : Config} {t : LabelTable} {ls ls' : List Leaf} {org : Nat} {image : Memory}
    {r : Nat × Memory} :
    pass3 cfg t (ls ++ ls') org image = .ok r ↔
      ∃ o im, pass3 cfg t ls org image = .ok (o, im) ∧ pass3 cfg t ls' o im = .ok r := by
  induction ls generalizing org image with
  | nil => simp
  | cons l ls ih =>
    simp only [List.cons_append, pass3_cons_eq_ok, ih]
    constructor
    · rintro ⟨o, im, hleaf, o', im', hls, hls'⟩
      exact ⟨o', im', ⟨o, im, hleaf, hls⟩, hls'⟩
    · rintro ⟨o', im', ⟨o, im, hleaf, hls⟩, hls'⟩
      exact ⟨o, im, hleaf, o', im', hls, hls'⟩

/-- A ROM byte of the booted machine is the image's byte at its address. -/
theorem romByte_resetWith (cfg : Config) (image : Memory) {a : Nat} (hlow : 0x8000 ≤ a) (hhigh : a < 0x10000) :
    (State.resetWith cfg image).romByte (a - 0x8000) = Memory.get image a := by
  have haddress : 0x8000 + (a - 0x8000) = a := by omega
  rw [State.romByte, State.resetWith, get_romOfImage _ (by omega), haddress]

/-- Bytes emitted into the upper half of the image stand in ROM after boot (D13). -/
theorem romHolds_resetWith_emitBytes (cfg : Config) (image : Memory) {org : Nat} {bytes : List Byte}
    (hlow : 0x8000 ≤ org) (hfits : org + bytes.length ≤ 0x10000) :
    (State.resetWith cfg (emitBytes image org bytes)).RomHolds org bytes := by
  refine ⟨hlow, hfits, fun k hk => ?_⟩
  have haddress : org - 0x8000 + k = org + k - 0x8000 := by omega
  have hrange : org ≤ org + k ∧ org + k < org + bytes.length := by omega
  rw [haddress, romByte_resetWith cfg _ (by omega) (by omega), get_emitBytes, dif_pos hrange]
  simp only [Nat.add_sub_cancel_left]

/-- Settles O56: pass 3 writes the last bytes at the origin it has reached, and the ROM load keeps the upper half. -/
theorem lastInstructionReachesRom : Obligations.LastInstructionReachesRom := by
  intro cfg ls op x t org org' v image image' hpass hresolve hrom hlast
  obtain ⟨o, im, hpass', hone⟩ := pass3_append_eq_ok.mp hlast
  obtain ⟨rfl, rfl⟩ := Prod.mk.inj (Except.ok.inj (hpass.symm.trans hpass'))
  obtain ⟨o', im', hleaf, hnil⟩ := pass3_cons_eq_ok.mp hone
  obtain ⟨rfl, rfl⟩ := Prod.mk.inj (Except.ok.inj hnil)
  obtain ⟨v', hv', hadvance, rfl⟩ := emitLeaf_eq_ok.mp hleaf
  obtain rfl := Except.ok.inj (hresolve.symm.trans hv')
  obtain ⟨-, hfits⟩ := advance_eq_ok.mp hadvance
  have hpos := chunkLength_pos v
  exact romHolds_resetWith_emitBytes cfg image hrom (by rw [length_encodeValue]; omega)

/-! ### Label tables: what pass 2 knows of the final table -/

theorem find_pass1 {sentinel v : Word} {ls : List Leaf} {t : LabelTable} {name : String}
    (h : (pass1 sentinel ls t).find name = some v) : v = sentinel ∨ t.find name = some v := by
  induction ls generalizing t with
  | nil => exact .inr h
  | cons l ls ih =>
    cases l with
    | rawData bytes => exact ih h
    | atOrigin a => exact ih h
    | descriptor op x => exact ih h
    | atLabel y =>
      rcases ih h with hv | hfind
      · exact .inl hv
      · rw [LabelTable.find_put] at hfind
        split at hfind
        · exact .inl (Option.some.inj hfind).symm
        · exact .inr hfind

/-- Pass 2 leaves the entry of a name that no leaf of the list labels. -/
theorem pass2_find_of_not_mem {ls : List Leaf} {org o : Nat} {u t : LabelTable} {name : String}
    (h : pass2 ls org u = .ok (o, t)) (hname : name ∉ Leaf.labels ls) : t.find name = u.find name := by
  induction ls generalizing org u with
  | nil =>
    cases h
    rfl
  | cons l ls ih =>
    obtain ⟨o', u', hleaf, hrest⟩ := pass2_cons_eq_ok.mp h
    rw [labels_cons, List.mem_append, not_or] at hname
    obtain ⟨hl, hls⟩ := hname
    rw [ih hrest hls]
    rw [spaceLeaf_eq_ok] at hleaf
    cases l with
    | atOrigin a => rw [hleaf.2]
    | rawData bytes => rw [hleaf.2]
    | atLabel y =>
      obtain ⟨-, -, rfl⟩ := hleaf
      have hne : y ≠ name := fun hy => hl (List.mem_singleton.mpr hy.symm)
      rw [LabelTable.find_put, if_neg hne]
    | descriptor op x =>
      obtain ⟨v, -, -, rfl⟩ := hleaf
      rfl

/-- What the table `u` of pass 2 tells of the final table `t`: a label already met has its final address, every other one
still the sentinel (R85, R86). -/
def TableAgrees (sentinel : Word) (t : LabelTable) (seen : List String) (u : LabelTable) : Prop :=
  ∀ name v, u.find name = some v → ∃ w, t.find name = some w ∧ if name ∈ seen then w = v else v = sentinel

/-- Entering a label's final address makes it a label already met. -/
theorem TableAgrees.put {sentinel v : Word} {t u : LabelTable} {seen : List String} {name : String}
    (h : TableAgrees sentinel t seen u) (hname : t.find name = some v) :
    TableAgrees sentinel t (name :: seen) (u.put name v) := by
  intro x v' hx
  rw [LabelTable.find_put] at hx
  by_cases hsame : name = x
  · subst hsame
    rw [if_pos rfl] at hx
    exact ⟨v, hname, by simpa using hx⟩
  · rw [if_neg hsame] at hx
    obtain ⟨w, hw, hrel⟩ := h x v' hx
    have hmem : x ∈ name :: seen ↔ x ∈ seen := by simp [Ne.symm hsame]
    exact ⟨w, hw, by simpa only [hmem] using hrel⟩

/-- Before pass 2 every label holds the sentinel. -/
theorem tableAgrees_pass1 {sentinel : Word} {ls : List Leaf} {o : Nat} {t : LabelTable}
    (h : pass2 ls 0 (pass1 sentinel ls []) = .ok (o, t)) : TableAgrees sentinel t [] (pass1 sentinel ls []) := by
  have hbefore := tableDefines_pass1 sentinel ls
  obtain ⟨-, hafter⟩ := pass2_ok hbefore (fun _ hx => hx) h
  intro name v hv
  have hsome : (t.find name).isSome := by rw [hafter name, ← hbefore name, hv]; rfl
  obtain ⟨w, hw⟩ := Option.isSome_iff_exists.mp hsome
  refine ⟨w, hw, ?_⟩
  rw [if_neg List.not_mem_nil]
  exact (find_pass1 hv).resolve_right (by simp [LabelTable.find])

/-! ### One leaf in both passes -/

/-- The labels met once a leaf is passed. -/
def seenAfter (seen : List String) : Leaf → List String
  | .atLabel name => name :: seen
  | .rawData _ => seen
  | .atOrigin _ => seen
  | .descriptor _ _ => seen

theorem driftOver_cons (cfg : Config) (t : LabelTable) (seen : List String) (d : Int) (l : Leaf) (ls : List Leaf) :
    Leaf.driftOver cfg t seen d (l :: ls) =
      Leaf.driftOver cfg t (seenAfter seen l) (Leaf.driftOver cfg t seen d [l]) ls := by
  cases l with
  | rawData bytes => rfl
  | atOrigin a => rfl
  | atLabel name => rfl
  | descriptor op x =>
    cases x with
    | lit n => rfl
    | labelRef name =>
      simp only [Leaf.driftOver, seenAfter]
      split
      · rfl
      · cases t.find name <;> rfl

theorem backwardOnly_cons (seen : List String) (l : Leaf) (ls : List Leaf) :
    Leaf.backwardOnly seen (l :: ls) ↔ Leaf.backwardOnly seen [l] ∧ Leaf.backwardOnly (seenAfter seen l) ls := by
  cases l with
  | rawData bytes => simp [Leaf.backwardOnly, seenAfter]
  | atOrigin a => simp [Leaf.backwardOnly, seenAfter]
  | atLabel name => simp [Leaf.backwardOnly, seenAfter]
  | descriptor op x => cases x <;> simp [Leaf.backwardOnly, seenAfter]

/-- No forward reference of the list is emitted longer than it was spaced: there is none, or the sentinel has three
chunks. -/
def NeverLonger (cfg : Config) (seen : List String) (ls : List Leaf) : Prop :=
  chunkLength cfg.labelSentinel = 3 ∨ Leaf.backwardOnly seen ls

theorem neverLonger_cons {cfg : Config} {seen : List String} {l : Leaf} {ls : List Leaf}
    (h : NeverLonger cfg seen (l :: ls)) : NeverLonger cfg seen [l] ∧ NeverLonger cfg (seenAfter seen l) ls := by
  rcases h with h | h
  · exact ⟨.inl h, .inl h⟩
  · obtain ⟨hl, hls⟩ := (backwardOnly_cons seen l ls).mp h
    exact ⟨.inr hl, .inr hls⟩

/-- An operand that pass 2 resolves, pass 3 resolves too, and the difference of the two lengths is the drift. -/
theorem resolve_final {cfg : Config} {t u : LabelTable} {seen : List String} {x : Operand} {v : Word}
    (hagrees : TableAgrees cfg.labelSentinel t seen u) (hv : x.resolve u = .ok v) (op : MoveOp) (d : Int) :
    ∃ w, x.resolve t = .ok w ∧
      Leaf.driftOver cfg t seen d [.descriptor op x] = d + ((chunkLength v : Int) - chunkLength w) ∧
      (NeverLonger cfg seen [.descriptor op x] → chunkLength w ≤ chunkLength v) := by
  cases x with
  | lit n =>
    rw [resolve_eq_ok] at hv
    refine ⟨v, resolve_eq_ok.mpr hv, ?_, fun _ => le_rfl⟩
    rw [sub_self, add_zero]
    rfl
  | labelRef name =>
    rw [resolve_eq_ok] at hv
    obtain ⟨w, hw, hrel⟩ := hagrees name v hv
    refine ⟨w, resolve_eq_ok.mpr hw, ?_⟩
    by_cases hseen : name ∈ seen
    · rw [if_pos hseen] at hrel
      subst hrel
      exact ⟨by simp [Leaf.driftOver, hseen], fun _ => le_rfl⟩
    · rw [if_neg hseen] at hrel
      subst hrel
      refine ⟨by simp [Leaf.driftOver, hseen, hw, drift], fun hfits => ?_⟩
      rcases hfits with hthree | hback
      · rw [hthree]
        exact chunkLength_le_three w
      · exact absurd hback.1 hseen

theorem advance_of_fits {org len : Nat} (h : len = 0 ∨ org + len ≤ 0x10000) : advance org len = .ok (org + len) :=
  advance_eq_ok.mpr ⟨rfl, h⟩

/-- Both passes at one leaf. The hypothesis on labels is that the final table has the address at which pass 2 met it. -/
theorem leaf_in_both_passes {cfg : Config} {t u u' : LabelTable} {seen : List String} {l : Leaf} {o o' : Nat}
    (hagrees : TableAgrees cfg.labelSentinel t seen u) (hspace : spaceLeaf o u l = .ok (o', u'))
    (hlabel : ∀ name, l = .atLabel name → t.find name = some (BitVec.ofNat 16 o)) {e : Nat} {d : Int}
    (hdrift : (o : Int) = e + d) (image : Memory) :
    TableAgrees cfg.labelSentinel t (seenAfter seen l) u' ∧
      (∀ e' im, emitLeaf cfg t e image l = .ok (e', im) → (o' : Int) = e' + Leaf.driftOver cfg t seen d [l]) ∧
      (NeverLonger cfg seen [l] → 0 ≤ d →
        0 ≤ Leaf.driftOver cfg t seen d [l] ∧ ∃ e' im, emitLeaf cfg t e image l = .ok (e', im)) := by
  rw [spaceLeaf_eq_ok] at hspace
  simp only [emitLeaf_eq_ok]
  cases l with
  | atOrigin a =>
    obtain ⟨horigin, rfl⟩ := hspace
    refine ⟨hagrees, fun e' im h => ?_, fun _ _ => ⟨le_rfl, o', image, horigin, rfl⟩⟩
    obtain ⟨horigin', -⟩ := h
    rw [horigin] at horigin'
    cases horigin'
    exact (add_zero _).symm
  | rawData bytes =>
    obtain ⟨hadvance, rfl⟩ := hspace
    obtain ⟨rfl, hfits⟩ := advance_eq_ok.mp hadvance
    refine ⟨hagrees, fun e' im h => ?_, fun _ hd => ⟨hd, _, _, advance_of_fits (by omega), rfl⟩⟩
    obtain ⟨hadvance', -⟩ := h
    obtain ⟨rfl, -⟩ := advance_eq_ok.mp hadvance'
    simp only [Leaf.driftOver]
    omega
  | atLabel name =>
    obtain ⟨-, rfl, rfl⟩ := hspace
    refine ⟨hagrees.put (hlabel name rfl), fun e' im h => ?_, fun _ hd => ⟨hd, e, image, rfl, rfl⟩⟩
    obtain ⟨rfl, -⟩ := h
    exact hdrift
  | descriptor op x =>
    obtain ⟨v, hv, hadvance, rfl⟩ := hspace
    obtain ⟨rfl, hfits⟩ := advance_eq_ok.mp hadvance
    obtain ⟨w, hw, hd', hshort⟩ := resolve_final hagrees hv op d
    have hpos := chunkLength_pos v
    rw [hd']
    refine ⟨hagrees, fun e' im h => ?_, fun hnever hd => ?_⟩
    · obtain ⟨w', hw', hadvance', -⟩ := h
      rw [hw] at hw'
      cases hw'
      obtain ⟨rfl, -⟩ := advance_eq_ok.mp hadvance'
      omega
    · have hle := hshort hnever
      exact ⟨by omega, _, _, w, hw, advance_of_fits (by omega), rfl⟩

/-! ### Both passes on arrival at a leaf -/

/-- On arrival at every leaf, from any place on: pass 2 gets there, a label there has pass 2's origin as its final address,
pass 3's origin lies below by the drift, and pass 3 gets there too where nothing is emitted longer than spaced. -/
theorem passes_on_arrival {cfg : Config} {t : LabelTable} {oEnd : Nat} {ls : List Leaf} (k : Nat) :
    ∀ {seen : List String} {u : LabelTable} {o e : Nat} {d : Int} (image : Memory),
      (Leaf.labels ls).Nodup → TableAgrees cfg.labelSentinel t seen u → pass2 ls o u = .ok (oEnd, t) →
      (o : Int) = e + d →
        ∃ (o' : Nat) (u' : LabelTable), pass2 (ls.take k) o u = .ok (o', u') ∧
          (∀ name, ls[k]? = some (.atLabel name) → (t.find name).map (·.toNat) = some o') ∧
          (∀ e' im, pass3 cfg t (ls.take k) e image = .ok (e', im) →
            (o' : Int) = e' + Leaf.driftOver cfg t seen d (ls.take k)) ∧
          (NeverLonger cfg seen (ls.take k) → 0 ≤ d → ∃ e' im, pass3 cfg t (ls.take k) e image = .ok (e', im)) := by
  induction ls generalizing k with
  | nil =>
    intro seen u o e d image _ _ _ hdrift
    rw [List.take_nil]
    refine ⟨o, u, rfl, nofun, fun e' im h => ?_, fun _ _ => ⟨e, image, rfl⟩⟩
    cases h
    exact hdrift
  | cons l ls ih =>
    intro seen u o e d image hnodup hagrees hpass hdrift
    obtain ⟨o₁, u₁, hleaf, hrest⟩ := pass2_cons_eq_ok.mp hpass
    rw [labels_cons, List.nodup_append] at hnodup
    obtain ⟨-, hnodup', hdisjoint⟩ := hnodup
    have hlabel (name : String) (hl : l = .atLabel name) :
        o ≤ 0xFFFF ∧ t.find name = some (BitVec.ofNat 16 o) := by
      subst hl
      have hfresh : name ∉ Leaf.labels ls := fun hmem => hdisjoint name (List.mem_singleton_self name) name hmem rfl
      obtain ⟨horg, -, rfl⟩ := spaceLeaf_eq_ok.mp hleaf
      rw [pass2_find_of_not_mem hrest hfresh, LabelTable.find_put, if_pos rfl]
      exact ⟨horg, rfl⟩
    cases k with
    | zero =>
      refine ⟨o, u, rfl, fun name hname => ?_, fun e' im h => ?_, fun _ _ => ⟨e, image, rfl⟩⟩
      · obtain ⟨horg, hfind⟩ := hlabel name (Option.some.inj hname)
        rw [hfind, Option.map_some, BitVec.toNat_ofNat, Nat.mod_eq_of_lt (by omega)]
      · cases h
        exact hdrift
    | succ k =>
      rw [List.take_succ_cons, List.getElem?_cons_succ]
      obtain ⟨hagrees', hemit, hexists⟩ :=
        leaf_in_both_passes hagrees hleaf (fun name hl => (hlabel name hl).2) hdrift image
      cases hemitted : emitLeaf cfg t e image l with
      | error stop =>
        obtain ⟨o', u', hpass', hname, -, -⟩ := ih k (e := o₁) (d := 0) image hnodup' hagrees' hrest (add_zero _).symm
        refine ⟨o', u', pass2_cons_eq_ok.mpr ⟨o₁, u₁, hleaf, hpass'⟩, hname, fun e' im h => ?_, fun hnever hd => ?_⟩
        · obtain ⟨e₁, im₁, hok, -⟩ := pass3_cons_eq_ok.mp h
          cases hemitted.symm.trans hok
        · obtain ⟨-, e₁, im₁, hok⟩ := hexists (neverLonger_cons hnever).1 hd
          cases hemitted.symm.trans hok
      | ok p =>
        obtain ⟨e₁, im₁⟩ := p
        obtain ⟨o', u', hpass', hname, hdrift', hreach⟩ :=
          ih k im₁ hnodup' hagrees' hrest (hemit e₁ im₁ hemitted)
        refine ⟨o', u', pass2_cons_eq_ok.mpr ⟨o₁, u₁, hleaf, hpass'⟩, hname, fun e' im h => ?_, fun hnever hd => ?_⟩
        · obtain ⟨e₂, im₂, hok, hpass₃⟩ := pass3_cons_eq_ok.mp h
          cases hemitted.symm.trans hok
          rw [driftOver_cons]
          exact hdrift' e' im hpass₃
        · obtain ⟨hl, hls⟩ := neverLonger_cons hnever
          obtain ⟨e', im, hpass₃⟩ := hreach hls (hexists hl hd).1
          exact ⟨e', im, pass3_cons_eq_ok.mpr ⟨e₁, im₁, hemitted, hpass₃⟩⟩

/-- Settles O59: at one leaf by what each pass does there; over a program by both passes' arrival from the start. -/
theorem referenceSpacedThenEmitted : Obligations.ReferenceSpacedThenEmitted := by
  constructor
  · intro cfg op name t t' u w org image hu hw hspaced hemitted
    exact ⟨spaceLeaf_eq_ok.mpr ⟨u, resolve_eq_ok.mpr hu, advance_of_fits (.inr hspaced), rfl⟩,
      emitLeaf_eq_ok.mpr ⟨w, resolve_eq_ok.mpr hw, advance_of_fits (.inr hemitted), rfl⟩⟩
  · intro cfg ls org t hnodup hpass k
    obtain ⟨o, u, hpass', hlabel, hdrift, hreach⟩ :=
      passes_on_arrival k (e := 0) (d := 0) [] hnodup (tableAgrees_pass1 hpass) hpass rfl
    exact ⟨o, u, hpass', hlabel, hdrift, fun hthree => hreach (.inl hthree) le_rfl⟩

/-! ### Without forward references -/

theorem backwardOnly_take {seen : List String} {ls : List Leaf} (h : Leaf.backwardOnly seen ls) (k : Nat) :
    Leaf.backwardOnly seen (ls.take k) := by
  induction ls generalizing seen k with
  | nil =>
    rw [List.take_nil]
    exact h
  | cons l ls ih =>
    obtain ⟨hl, hls⟩ := (backwardOnly_cons seen l ls).mp h
    cases k with
    | zero => trivial
    | succ k => exact (backwardOnly_cons seen l _).mpr ⟨hl, ih hls k⟩

/-- Backward references gather no drift. -/
theorem driftOver_of_backwardOnly (cfg : Config) (t : LabelTable) {seen : List String} {ls : List Leaf}
    (h : Leaf.backwardOnly seen ls) : Leaf.driftOver cfg t seen 0 ls = 0 := by
  induction ls generalizing seen with
  | nil => rfl
  | cons l ls ih =>
    obtain ⟨hl, hls⟩ := (backwardOnly_cons seen l ls).mp h
    have hleaf : Leaf.driftOver cfg t seen 0 [l] = 0 := by
      cases l with
      | rawData bytes => rfl
      | atOrigin a => rfl
      | atLabel name => rfl
      | descriptor op x =>
        cases x with
        | lit n => rfl
        | labelRef name => simp [Leaf.driftOver, hl.1]
    rw [driftOver_cons, hleaf]
    exact ih hls

/-- Settles O57: with no forward reference pass 3 arrives at every leaf, and with no drift. -/
theorem backwardReferencesNeverDrift : Obligations.BackwardReferencesNeverDrift := by
  intro cfg ls org t hnodup hback hpass k name hname
  have htake := backwardOnly_take hback k
  obtain ⟨o, u, -, hlabel, hdrift, hreach⟩ :=
    passes_on_arrival k (e := 0) (d := 0) [] hnodup (tableAgrees_pass1 hpass) hpass rfl
  obtain ⟨a, hfind, hnat⟩ := Option.map_eq_some_iff.mp (hlabel name hname)
  obtain ⟨e, image, hpass₃⟩ := hreach (.inr htake) le_rfl
  have horg : (o : Int) = e := by rw [hdrift e image hpass₃, driftOver_of_backwardOnly cfg t htake, add_zero]
  refine ⟨a, image, hfind, ?_⟩
  rw [hpass₃, hnat, Int.ofNat.inj horg]

end Sys2Proof.Proofs
end
